-- ==== Sys2Proof/Word.lean ====
section
/-!
DEFINITION. The value types of the block's ports and of its four operations. Every float is held as
its encoding (10_state.md R31, 40_fp32_bitcast.md R84 and R91, 41_fp64_bitcast.md R114), so equality
is equality of bits (00_scope.md R12), and every value is unsigned (R10).
-/

namespace Sys2Proof

/-- The operation select `op[1:0]` (10_state.md R28). -/
abbrev OpSelect := BitVec 2

/-- The operand bus `a[63:0]` and the result bus `r[63:0]` (10_state.md R28). -/
abbrev Bus := BitVec 64

/-- A serialised request: the 66-bit value `op ++ a`, `op` in bits 65..64 (30_encoding.md R60). -/
abbrev RequestWord := BitVec 66

/-- A binary32 number, held as its encoding (10_state.md R31). -/
abbrev Float32Value := BitVec 32

/-- An unsigned 32-bit integer (10_state.md R31). -/
abbrev Bits32 := BitVec 32

/-- A binary64 number, held as its encoding (10_state.md R31). -/
abbrev Float64Value := BitVec 64

/-- An unsigned 64-bit pattern, the single form of R31. -/
abbrev Bits64 := BitVec 64

/-- Two unsigned 32-bit integers: `high` holds bits 63..32 and `low` holds bits 31..0 of a 64-bit
pattern (41_fp64_bitcast.md R115). -/
structure Bits64Pair where
  high : Bits32
  low : Bits32
  deriving DecidableEq, Repr

/-- A line of text in the assembler syntax, as its characters (30_encoding.md R68). -/
abbrev Text := List Char

end Sys2Proof
end

