-- ==== Sys2Proof/Config.lean ====
section
/-!
DEFINITION. What is fixed for the machine. The spec leaves no parameter of the block open
(00_scope.md R7), so there is no free value here: only the two values the host's inputs carry in the
model's reset state, which no rule states.
-/

namespace Sys2Proof.Config

/-- DESIGN CHOICE (log 2, unsafe): what the host drives on `op` before it presents a request. -/
def resetOp : OpSelect := 0b00#2

/-- DESIGN CHOICE (log 2, unsafe): what the host drives on `a` before it presents a request. -/
def resetOperand : Bus := 0#64

end Sys2Proof.Config
end

