-- ==== Sys2Proof/Syntax.lean ====
section
/-!
DEFINITION. The requests of the block (30_encoding.md R60, R61) and the lines of a host's program
(R68). An instruction is a whole request, so it carries all of the operand bus: `a[63:32]` of a 32-bit
operation is part of the request although the operation ignores it (R62).
-/

namespace Sys2Proof

/-- The four operations, one constructor per row of the opcode table, in the order of the codes. -/
inductive Instr where
  /-- `op = 00`, 40_fp32_bitcast.md R85. -/
  | fp32ToUint32Bitcast (a : Bus)
  /-- `op = 01`, 40_fp32_bitcast.md R86. -/
  | uint32ToFp32Bitcast (a : Bus)
  /-- `op = 10`, 41_fp64_bitcast.md R118. -/
  | fp64ToUint64Bitcast (a : Bus)
  /-- `op = 11`, 41_fp64_bitcast.md R119. -/
  | uint64ToFp64Bitcast (a : Bus)
  deriving DecidableEq, Repr

/-- The operand of a program line (30_encoding.md R68). -/
inductive Operand where
  /-- The 64 bits the host puts on `a`. -/
  | bits (a : Bus)
  /-- `@k`: the whole 64-bit response of request `k` of the same program. -/
  | chain (k : Nat)
  deriving DecidableEq, Repr

/-- One line of a host's program: an operation select and an operand (30_encoding.md R68). -/
structure ProgramLine where
  op : OpSelect
  operand : Operand
  deriving DecidableEq, Repr

end Sys2Proof
end

