-- ==== Sys2Proof/WellFormed.lean ====
section
/-!
DEFINITION. Which terms are well formed. Every request is (30_encoding.md R66), because the widths
are types (10_state.md R32). The one check is on a host's program: `@k` names a request of the same
program that already has its response, so an earlier one (R68, log 4).
-/

namespace Sys2Proof

/-- Every one of the 2^66 requests is valid (30_encoding.md R66). -/
def Instr.wellFormed (_ : Instr) : Bool := true

/-- The operand of line `i` may be used there: a chained one names a line before `i` (R68). -/
def Operand.legalAt : Operand → Nat → Bool
  | .bits _, _ => true
  | .chain k, i => decide (k < i)

/-- Lines numbered from `i` on, each legal where it stands. -/
def legalFrom : Nat → List ProgramLine → Bool
  | _, [] => true
  | i, l :: ls => l.operand.legalAt i && legalFrom (i + 1) ls

/-- A program is a finite list of lines (70_reset_and_hazards.md R167), numbered from 0 (R22). -/
def programWellFormed (p : List ProgramLine) : Bool := legalFrom 0 p

end Sys2Proof
end

