-- ==== Sys2Proof/Decode.lean ====
section
/-!
DEFINITION. From a serialised request to an instruction, and back (30_encoding.md R60, R61). Decoding
a 66-bit word is total and refuses nothing (R66, R67). Only a bare number can be ill typed: one that
needs more than 66 bits is rejected by name (R32, R153, log 6).
-/

namespace Sys2Proof

/-- `op`, bits 65..64 of a serialised request (R60). -/
def RequestWord.opField (w : RequestWord) : OpSelect := w.extractLsb' 64 2

/-- `a`, bits 63..0 of a serialised request (R60). -/
def RequestWord.operandField (w : RequestWord) : Bus := w.extractLsb' 0 64

/-- The 66-bit value `op ++ a` (R60). -/
def serialise (op : OpSelect) (a : Bus) : RequestWord := op ++ a

/-- The operation codes (R61): all four values of `op` are assigned. -/
def decodeRequest (op : OpSelect) (a : Bus) : Instr :=
  match op with
  | 0b00#2 => .fp32ToUint32Bitcast a
  | 0b01#2 => .uint32ToFp32Bitcast a
  | 0b10#2 => .fp64ToUint64Bitcast a
  | 0b11#2 => .uint64ToFp64Bitcast a

/-- The decoder, total on the 2^66 requests (R66). -/
def decode (w : RequestWord) : Instr :=
  decodeRequest (RequestWord.opField w) (RequestWord.operandField w)

/-- Why a bare number is no request. -/
inductive DecodeReject where
  /-- It needs more than 66 bits: `op` would not be 2 bits or `a` not 64 (R153). -/
  | widerThanRequest
  deriving DecidableEq, Repr

/-- The decoder at the boundary where a request is only a number (R32, log 6). -/
def decodeNat (w : Nat) : Except DecodeReject Instr :=
  if w < 2 ^ 66 then .ok (decode (BitVec.ofNat 66 w)) else .error .widerThanRequest

/-- The operation code of an instruction (R61). -/
def Instr.op : Instr → OpSelect
  | .fp32ToUint32Bitcast _ => 0b00#2
  | .uint32ToFp32Bitcast _ => 0b01#2
  | .fp64ToUint64Bitcast _ => 0b10#2
  | .uint64ToFp64Bitcast _ => 0b11#2

/-- What an instruction's request has on the operand bus. -/
def Instr.operandBus : Instr → Bus
  | .fp32ToUint32Bitcast a => a
  | .uint32ToFp32Bitcast a => a
  | .fp64ToUint64Bitcast a => a
  | .uint64ToFp64Bitcast a => a

/-- The encoder: the serialised request of an instruction (R60, R61). -/
def encode (i : Instr) : RequestWord := serialise i.op i.operandBus

/-- The line that presents a serialised request as it stands. -/
def ProgramLine.ofWord (w : RequestWord) : ProgramLine :=
  { op := RequestWord.opField w, operand := .bits (RequestWord.operandField w) }

/-- The host's reading of an opcode-table word, numbered as the table numbers it (R60, log 6). -/
def decodeTableWord (_nbits w : Nat) : Option Instr :=
  match decodeNat w with
  | .ok i => some i
  | .error _ => none

end Sys2Proof
end

