-- ==== Sys2Proof/Machine/State.lean ====
section
/-!
DEFINITION. The state of one step. The block has none (10_state.md R20): its part is `Unit`. The rest is
its interface, the three ports of R28, and what the host holds around it: the program, the index into it
and the responses (R22, 30_encoding.md R68, 70_reset_and_hazards.md R167). See log 1.
-/

namespace Sys2Proof.Machine

/-- Nothing faults: the block raises no exception and enters no trap, and no request sticks
(60_exceptions.md R140, R144, R153). No one raises a fault, so the type is empty. -/
inductive Fault where
  deriving DecidableEq, Repr

/-- Why a step has no meaning. -/
inductive Refusal where
  /-- Kept for the host's interface: an instruction without a meaning. No arm raises it. Safe. -/
  | notModelled (mnemonic : String)
  /-- Raised by `step`, by no instruction: the line at the index is `@k` and request `k` has no response
  yet, so the line is no request (30_encoding.md R68, log 4). Safe: the model stops. -/
  | openChain
  deriving DecidableEq, Repr

/-- The architectural state of the block: none, "A Lean model's machine state type is therefore `Unit`"
(10_state.md R20). -/
abbrev BlockState := Unit

/-- What the host presents now. -/
inductive Presentation where
  /-- A request, serialised (30_encoding.md R60). -/
  | request (w : RequestWord)
  /-- The index is past the last line: the run has ended (70_reset_and_hazards.md R167). -/
  | noRequest
  /-- A line `@k` whose request `k` has no response yet. -/
  | openChain
  deriving DecidableEq, Repr

/-- The block, its ports and its host's bookkeeping. -/
structure State where
  /-- The block's own state (10_state.md R20). -/
  block : BlockState
  /-- Input port `op` (10_state.md R28): the last value presented (log 7). -/
  op : OpSelect
  /-- Input port `a` (10_state.md R28): the last value presented (log 7). -/
  a : Bus
  /-- Output port `r` (10_state.md R28): what the block drives for those inputs (R33). -/
  r : Bus
  /-- The host's program (70_reset_and_hazards.md R167). -/
  program : List ProgramLine
  /-- The host's index into it (10_state.md R22). -/
  pc : Nat
  /-- The responses so far, request 0 first (30_encoding.md R68, 70_reset_and_hazards.md R167). -/
  responses : List Bus
  deriving DecidableEq, Repr

/-- Before the first request. No reset value exists for the block (10_state.md R33); the index starts at
0 (R22); no program is loaded and nothing is answered (log 5). `op` and `a` are what the host drives
(log 2), and `r` is the block's response to them (R33), as `r_of_reset` in Laws/State.lean checks. -/
def State.reset : State :=
  { block := (), op := Config.resetOp, a := Config.resetOperand, r := 0#64,
    program := [], pc := 0, responses := [] }

end Sys2Proof.Machine
end

