-- ==== Sys2Proof/Machine/Operands.lean ====
section
/-!
DEFINITION. Reading an operand from `a` and assembling a result for `r` (30_encoding.md R62 to R64), the
pair view of a 64-bit pattern (41_fp64_bitcast.md R116, R117), and byte lanes (00_scope.md R8).
-/

namespace Sys2Proof.Machine

/-- `v[31:0]` of a 64-bit value (00_scope.md R8). -/
def low32 (v : BitVec 64) : BitVec 32 := v.extractLsb' 0 32

/-- `v[63:32]` of a 64-bit value (00_scope.md R8). -/
def high32 (v : BitVec 64) : BitVec 32 := v.extractLsb' 32 32

/-- `zext_64` of a 32-bit value (00_scope.md R9). -/
def zext64 (v : BitVec 32) : BitVec 64 := v.setWidth 64

/-- The operand of a 32-bit operation is `a[31:0]`; `a[63:32]` is ignored (30_encoding.md R62). -/
def operand32 (a : Bus) : BitVec 32 := low32 a

/-- The operand of a 64-bit operation is all of `a` (30_encoding.md R63). -/
def operand64 (a : Bus) : BitVec 64 := a

/-- A 32-bit result is driven zero-extended (30_encoding.md R64). -/
def result32 (res : BitVec 32) : Bus := zext64 res

/-- A 64-bit result is driven whole (30_encoding.md R64). -/
def result64 (res : BitVec 64) : Bus := res

/-- The 64-bit pattern of a pair: shift and OR at 64 bits, both halves zero-extended
(41_fp64_bitcast.md R116). -/
def join (high low : Bits32) : Bits64 := (zext64 high <<< 32) ||| zext64 low

/-- The pair view of a 64-bit pattern (41_fp64_bitcast.md R117). -/
def split (v : Bits64) : Bits64Pair := { high := high32 v, low := low32 v }

/-- Byte lane `k` is `v[8k+7:8k]` (00_scope.md R8). A lane is a slice, not an address (20_memory.md R42). -/
def byteLane (v : BitVec 64) (k : Nat) : BitVec 8 := v.extractLsb' (8 * k) 8

end Sys2Proof.Machine
end

