-- ==== Sys2Proof/Machine/Flags.lean ====
section
/-!
DEFINITION. Flags: there are none. The block writes and reads no status flag, no condition code and no
IEEE 754 exception flag (10_state.md R23), and a signaling NaN sets none (60_exceptions.md R141). So this
file computes nothing; it stands so that a reader finds the rule where the package keeps its flags.
-/
end

