-- ==== Sys2Proof/Machine/Ops.lean ====
section
/-!
DEFINITION. The operations every instruction and every step share: answering a request, and the host's
side of it. No operation takes an exception or returns from one, because the block has none
(60_exceptions.md R140, R144, R145), and none touches a memory, because there is none (20_memory.md R40).
-/

namespace Sys2Proof.Machine

/-- `r <- v` (00_scope.md R11): the request `(op, a)` is on the inputs, the block drives `v`, and the host
notes the response and moves its index on by exactly 1 (10_state.md R22). One atomic evaluation (R30). -/
def State.respond (op : OpSelect) (a v : Bus) (s : State) : State :=
  { s with op := op, a := a, r := v, pc := s.pc + 1, responses := s.responses ++ [v] }

/-- The bits an operand puts on `a`: `@k` is the whole response of request `k` (30_encoding.md R68,
90_conflicts.md C8), once it has one. -/
def operandBits (responses : List Bus) : Operand → Option Bus
  | .bits a => some a
  | .chain k => responses[k]?

/-- What a line presents, given the responses so far. -/
def presentLine (responses : List Bus) (l : ProgramLine) : Presentation :=
  match operandBits responses l.operand with
  | some a => .request (serialise l.op a)
  | none => .openChain

/-- What the host presents: the line at its index, if there is one (10_state.md R22). -/
def State.presentation (s : State) : Presentation :=
  match s.program[s.pc]? with
  | some l => presentLine s.responses l
  | none => .noRequest

/-- After the last response nothing is pending (70_reset_and_hazards.md R167). The inputs stay as they are,
and so does `r` (10_state.md R33). DESIGN CHOICE (log 3, unsafe): the host presents nothing further. -/
def State.afterLastRequest (s : State) : State := s

/-- The host gives the machine a program to run (log 5). -/
def State.load (p : List ProgramLine) (s : State) : State :=
  { s with program := p, pc := 0, responses := [] }

/-- The program with line `pc` replaced by `l`, grown to reach `pc` where it was shorter. -/
def placeLine (p : List ProgramLine) (pc : Nat) (l : ProgramLine) : List ProgramLine :=
  (p ++ List.replicate (pc + 1 - p.length) l).set pc l

end Sys2Proof.Machine
end

