-- ==== Sys2Proof/Machine/Fp32.lean ====
section
/-!
DEFINITION. The 32-bit bitcasts (40_fp32_bitcast.md): each result has the operand's bits, read at the other
type. Nothing is computed, rounded, classified or checked (R90).
-/

namespace Sys2Proof.Machine

/-- `FP32_TO_UINT32` (40_fp32_bitcast.md R85): bit i of the result is bit i of `v`. -/
def fp32ToUint32 (v : Float32Value) : Bits32 := v

/-- `UINT32_TO_FP32` (40_fp32_bitcast.md R86): the binary32 encoding of the result is `b`. -/
def uint32ToFp32 (b : Bits32) : Float32Value := b

/-- `fp32_to_uint32_bitcast`, `op = 00` (40_fp32_bitcast.md R85). -/
def execFp32ToUint32Bitcast (a : Bus) (s : State) : Host.Outcome State Fault Refusal :=
  .next (s.respond 0b00#2 a (result32 (fp32ToUint32 (operand32 a))))

/-- `uint32_to_fp32_bitcast`, `op = 01` (40_fp32_bitcast.md R86). -/
def execUint32ToFp32Bitcast (a : Bus) (s : State) : Host.Outcome State Fault Refusal :=
  .next (s.respond 0b01#2 a (result32 (uint32ToFp32 (operand32 a))))

end Sys2Proof.Machine
end

