-- ==== Sys2Proof/Machine/Fp64.lean ====
section
/-!
DEFINITION. The 64-bit bitcasts (41_fp64_bitcast.md), in the single form; the pair form is `join` before and
`split` after, a view of the same bits (R122).
-/

namespace Sys2Proof.Machine

/-- `FP64_TO_UINT64` (41_fp64_bitcast.md R118): bit i of the result is bit i of `v`. -/
def fp64ToUint64 (v : Float64Value) : Bits64 := v

/-- `UINT64_TO_FP64` (41_fp64_bitcast.md R119): the binary64 encoding of the result is `u`. -/
def uint64ToFp64 (u : Bits64) : Float64Value := u

/-- `fp64_to_uint64_bitcast`, `op = 10` (41_fp64_bitcast.md R118). -/
def execFp64ToUint64Bitcast (a : Bus) (s : State) : Host.Outcome State Fault Refusal :=
  .next (s.respond 0b10#2 a (result64 (fp64ToUint64 (operand64 a))))

/-- `uint64_to_fp64_bitcast`, `op = 11` (41_fp64_bitcast.md R119). -/
def execUint64ToFp64Bitcast (a : Bus) (s : State) : Host.Outcome State Fault Refusal :=
  .next (s.respond 0b11#2 a (result64 (uint64ToFp64 (operand64 a))))

/-- `doubleToBits(value) → (high, low)`, the source's pair form of R118 (R122). -/
def doubleToBits (v : Float64Value) : Bits64Pair := split (fp64ToUint64 v)

/-- `bitsToDouble(high, low)`, the source's pair form of R119 (R122). -/
def bitsToDouble (high low : Bits32) : Float64Value := uint64ToFp64 (join high low)

end Sys2Proof.Machine
end

