-- ==== Sys2Proof/Machine/Dispatch.lean ====
section
/-!
DEFINITION. One arm per instruction, each a call of its meaning.
-/

namespace Sys2Proof.Machine

def exec (i : Instr) (s : State) : Host.Outcome State Fault Refusal :=
  match i with
  | .fp32ToUint32Bitcast a => Sys2Proof.Machine.execFp32ToUint32Bitcast a s
  | .uint32ToFp32Bitcast a => Sys2Proof.Machine.execUint32ToFp32Bitcast a s
  | .fp64ToUint64Bitcast a => Sys2Proof.Machine.execFp64ToUint64Bitcast a s
  | .uint64ToFp64Bitcast a => Sys2Proof.Machine.execUint64ToFp64Bitcast a s

end Sys2Proof.Machine
end

