-- ==== Sys2Proof/Machine/Step.lean ====
section
/-!
DEFINITION. One step: the host presents the request at its index and the block answers it, atomically
(10_state.md R30). The block fetches nothing (R22, 20_memory.md R52): `op` and `a` come together.
-/

namespace Sys2Proof.Machine

/-- The step. A request runs its instruction; past the last line nothing happens (log 3); a line that is no
request is refused (log 4). -/
def step (s : State) : Host.Outcome State Fault Refusal :=
  match s.presentation with
  | .request w => exec (decode w) s
  | .noRequest => .next s.afterLastRequest
  | .openChain => .refused .openChain

/-- The host's program holds the serialised request `w` at the index (logs 5 and 6). -/
def State.withFetchWord (s : State) (_nbits w : Nat) : State :=
  { s with program := placeLine s.program s.pc (ProgramLine.ofWord (BitVec.ofNat 66 w)) }

end Sys2Proof.Machine
end

