-- ==== Sys2Proof/Machine/Assembler.lean ====
section
/-!
DEFINITION. The text of a request: assembler lines and the disassembler (30_encoding.md R68 to R70). Host
notation only: the block sees bits. What R68 leaves open about the text is log 9.
-/

namespace Sys2Proof.Machine

/-- The mnemonics (R61). -/
def mnemonic (op : OpSelect) : Text :=
  match op with
  | 0b00#2 => "fp32_to_uint32_bitcast".toList
  | 0b01#2 => "uint32_to_fp32_bitcast".toList
  | 0b10#2 => "fp64_to_uint64_bitcast".toList
  | 0b11#2 => "uint64_to_fp64_bitcast".toList

/-- The source's names, accepted spellings of the same requests (R61, R68). -/
def sourceName (op : OpSelect) : Text :=
  match op with
  | 0b00#2 => "floatToBits".toList
  | 0b01#2 => "bitsToFloat".toList
  | 0b10#2 => "doubleToBits".toList
  | 0b11#2 => "bitsToDouble".toList

/-- The operation a name spells (R68). -/
def readName (t : Text) : Option OpSelect :=
  [0b00#2, 0b01#2, 0b10#2, 0b11#2].find? fun op => t == mnemonic op || t == sourceName op

/-- The upper-case hexadecimal digit of a number below 16 (R70). -/
def hexDigit (d : Nat) : Char := if d < 10 then Char.ofNat (48 + d) else Char.ofNat (55 + d)

/-- The last `n` hexadecimal digits of a number, most significant first. -/
def hexDigits : Nat → Nat → Text
  | 0, _ => []
  | n + 1, v => hexDigits n (v / 16) ++ [hexDigit (v % 16)]

/-- The value of a decimal digit. -/
def decimalValue (c : Char) : Option Nat :=
  if 48 ≤ c.toNat ∧ c.toNat ≤ 57 then some (c.toNat - 48) else none

/-- The value of a hexadecimal digit of either case (DESIGN CHOICE, log 9). -/
def hexValue (c : Char) : Option Nat :=
  if 48 ≤ c.toNat ∧ c.toNat ≤ 57 then some (c.toNat - 48)
  else if 65 ≤ c.toNat ∧ c.toNat ≤ 70 then some (c.toNat - 55)
  else if 97 ≤ c.toNat ∧ c.toNat ≤ 102 then some (c.toNat - 87)
  else none

/-- The number digits spell, most significant first, on top of `acc`. -/
def readDigits (base : Nat) (value : Char → Option Nat) : Nat → Text → Option Nat
  | acc, [] => some acc
  | acc, c :: cs =>
    match value c with
    | some d => readDigits base value (base * acc + d) cs
    | none => none

/-- A hexadecimal literal of exactly `n` digits after `0x` (R68). -/
def readHex (n : Nat) (t : Text) : Option Nat :=
  match t with
  | '0' :: 'x' :: ds => if ds.length = n then readDigits 16 hexValue 0 ds else none
  | _ => none

/-- The pair form `<high>, <low>` of two 8-digit literals (R68): `a = high ++ low`. -/
def readPair (t : Text) : Option Bus :=
  if (t.drop 10).take 2 = [',', ' '] then
    match readHex 8 (t.take 10), readHex 8 (t.drop 12) with
    | some h, some l => some (join (BitVec.ofNat 32 h) (BitVec.ofNat 32 l))
    | _, _ => none
  else none

/-- A literal operand at the operation's width: an 8-digit literal gives `a[31:0]` with `a[63:32]` zero; at
64 bits, a 16-digit literal or the pair form (R68). -/
def readLiteral (op : OpSelect) (t : Text) : Option Bus :=
  if op[1] then
    match readHex 16 t with
    | some n => some (BitVec.ofNat 64 n)
    | none => readPair t
  else
    match readHex 8 t with
    | some n => some (zext64 (BitVec.ofNat 32 n))
    | none => none

/-- An operand: `@k` with `k` in decimal (log 9), or a literal (R68). -/
def readOperand (op : OpSelect) (t : Text) : Option Operand :=
  match t with
  | '@' :: ds =>
    if ds = [] then none else (readDigits 10 decimalValue 0 ds).map .chain
  | _ => (readLiteral op t).map .bits

/-- The line `<mnemonic> <operand>`, one space between (R68, log 9). -/
def readLine (t : Text) : Option ProgramLine :=
  match t.dropWhile (· != ' ') with
  | ' ' :: rest =>
    match readName (t.takeWhile (· != ' ')) with
    | some op => (readOperand op rest).map (ProgramLine.mk op)
    | none => none
  | _ => none

/-- The lines of a program, in order (70_reset_and_hazards.md R167). -/
def readLines : List Text → Option (List ProgramLine)
  | [] => some []
  | t :: ts =>
    match readLine t, readLines ts with
    | some l, some ls => some (l :: ls)
    | _, _ => none

/-- A program text: every line reads, and every `@k` names an earlier request of the same program (R68). -/
def assemble (ts : List Text) : Option (List ProgramLine) :=
  match readLines ts with
  | some p => if programWellFormed p then some p else none
  | none => none

/-- What the disassembler prints for a request (R70). -/
def disassemble (op : OpSelect) (a : Bus) : Text :=
  mnemonic op ++ ' ' :: '0' :: 'x' ::
    (if op[1] then hexDigits 16 a.toNat else hexDigits 8 (low32 a).toNat)

end Sys2Proof.Machine
end

