-- ==== Sys2Proof/Machine/Formats.lean ====
section
/-!
DEFINITION. How an encoding is read as a number: the binary32 and binary64 fields, classes and values
(40_fp32_bitcast.md R80 to R83, 41_fp64_bitcast.md R110 to R113). No operation uses this file (R90): it only
names the values that claims and test vectors speak of (00_scope.md R13). PRESUMED where the spec says
"from general knowledge" (log 8).
-/

namespace Sys2Proof.Machine

/-- The classes of R81 and R111; `negative` is the sign bit, `quiet` the bit of R83 and R113. -/
inductive FpClass where
  | zero (negative : Bool)
  | subnormal
  | normal
  | infinity (negative : Bool)
  | nan (quiet : Bool)
  deriving DecidableEq, Repr

/-- The number a finite encoding denotes (R82, R112): the two zeros are told apart. -/
inductive FpNumber where
  | zero (negative : Bool)
  | nonzero (q : ℚ)
  deriving DecidableEq, Repr

/-- The class table of R81 and R111, over a format's fields; `eMax` is its all-ones exponent. -/
def classify (eMax : Nat) (s : Bool) (e m : Nat) (quiet : Bool) : FpClass :=
  if e = 0 then
    if m = 0 then .zero s else .subnormal
  else if e = eMax then
    if m = 0 then .infinity s else .nan quiet
  else .normal

/-- `(-1)^s`. -/
def signFactor (s : Bool) : ℚ := if s then -1 else 1

/-- The value formulas of R82 and R112, for a mantissa of `p` bits; an infinity or a NaN denotes no number
(DEDUCED, log 10). -/
def denote (bias p : Nat) (s : Bool) (e m : Nat) : FpClass → Option FpNumber
  | .zero negative => some (.zero negative)
  | .subnormal => some (.nonzero (signFactor s * 2 ^ (1 - bias : ℤ) * (m / 2 ^ p)))
  | .normal => some (.nonzero (signFactor s * 2 ^ (e - bias : ℤ) * (1 + m / 2 ^ p)))
  | .infinity _ => none
  | .nan _ => none

/-- binary32 sign `v[31]` (R80). -/
def sign32 (v : Float32Value) : Bool := v[31]

/-- binary32 exponent `v[30:23]` (R80). -/
def exponent32 (v : Float32Value) : BitVec 8 := v.extractLsb' 23 8

/-- binary32 mantissa `v[22:0]` (R80). -/
def mantissa32 (v : Float32Value) : BitVec 23 := v.extractLsb' 0 23

/-- The class of a binary32 encoding (R81, R83). -/
def class32 (v : Float32Value) : FpClass :=
  classify 255 (sign32 v) (exponent32 v).toNat (mantissa32 v).toNat (mantissa32 v)[22]

/-- The number a binary32 encoding denotes (R82). -/
def number32 (v : Float32Value) : Option FpNumber :=
  denote 127 23 (sign32 v) (exponent32 v).toNat (mantissa32 v).toNat (class32 v)

/-- binary64 sign `v[63]` (R110). -/
def sign64 (v : Float64Value) : Bool := v[63]

/-- binary64 exponent `v[62:52]` (R110). -/
def exponent64 (v : Float64Value) : BitVec 11 := v.extractLsb' 52 11

/-- binary64 mantissa `v[51:0]` (R110). -/
def mantissa64 (v : Float64Value) : BitVec 52 := v.extractLsb' 0 52

/-- The class of a binary64 encoding (R111, R113). -/
def class64 (v : Float64Value) : FpClass :=
  classify 2047 (sign64 v) (exponent64 v).toNat (mantissa64 v).toNat (mantissa64 v)[51]

/-- The number a binary64 encoding denotes (R112). -/
def number64 (v : Float64Value) : Option FpNumber :=
  denote 1023 52 (sign64 v) (exponent64 v).toNat (mantissa64 v).toNat (class64 v)

end Sys2Proof.Machine
end

