-- ==== Sys2Proof/Machine/Block.lean ====
section
/-!
DEFINITION. The whole block as one function of its two inputs (10_state.md R30, 30_encoding.md R71). No step
calls it: the step runs the meanings, and claims say that they agree with this function.
-/

namespace Sys2Proof.Machine

/-- `Block(op, a)` (30_encoding.md R71): total, one arm per value of `op`. -/
def blockFunction (op : OpSelect) (a : Bus) : Bus :=
  match op with
  | 0b00#2 => zext64 (fp32ToUint32 (low32 a))
  | 0b01#2 => zext64 (uint32ToFp32 (low32 a))
  | 0b10#2 => fp64ToUint64 a
  | 0b11#2 => uint64ToFp64 a

end Sys2Proof.Machine
end

