-- ==== Sys2Proof/Safety.lean ====
section
/-!
DEFINITION. What a good state is, in the terms claims use. The block promises nothing about state, since it
has none; the invariant ties the ports, the host's index and the responses together.
-/

namespace Sys2Proof.Machine

/-- At every moment `r` is `Block(op, a)` of the inputs then present (10_state.md R33). -/
abbrev State.PortsAgree (s : State) : Prop := s.r = blockFunction s.op s.a

/-- The response line `k` of the program must have: `Block` of the line's `op` and of the bits its operand
puts on `a` (30_encoding.md R68, R71). -/
def State.dueResponse (s : State) (k : Nat) : Option Bus :=
  match s.program[k]? with
  | some l => (operandBits s.responses l.operand).map (blockFunction l.op)
  | none => none

/-- The ports agree, the program is legal, the host's index counts the responses and stays within the program,
and every response is the one its line must have. -/
structure State.Inv (s : State) : Prop where
  /-- 10_state.md R33. -/
  ports : s.PortsAgree
  /-- 30_encoding.md R68. -/
  legal : programWellFormed s.program = true
  /-- The index advances by exactly 1 for every request (10_state.md R22). -/
  counted : s.pc = s.responses.length
  /-- The run ends with the last request (70_reset_and_hazards.md R167). -/
  bounded : s.pc ≤ s.program.length
  /-- 30_encoding.md R71: each response is that of its own request. -/
  answered : ∀ k, k < s.responses.length → s.responses[k]? = s.dueResponse k

end Sys2Proof.Machine
end

