-- ==== Sys2Proof/Certificates/Slice0/Obligations.lean ====
section
/-!
DEFINITION. What is claimed of the model, for the provers. Each docstring names the rule of spec/ it formalises;
"model's choice" marks what rests on a log entry and not on a rule.
-/

open Sys2Proof Sys2Proof.Machine

/-! ### The four operations: each completes on every operand in every state -/

/-- 40_fp32_bitcast.md R85. The request `00 ++ a` is this instruction; it answers for every operand; bit i of `r`
is bit i of `a` for i = 0..31 and 0 above, whatever `a[63:32]` holds; nothing but the ports and the host's
record of the response changes. -/
def Obligations.Fp32ToUint32AnswersOperandBits : Prop :=
  ∀ (a : Bus) (s : State),
    decode (0b00#2 ++ a) = .fp32ToUint32Bitcast a ∧
    ∃ t, exec (.fp32ToUint32Bitcast a) s = .next t ∧
      (∀ i, t.r.getLsbD i = (decide (i < 32) && a.getLsbD i)) ∧
      t.r = zext64 (fp32ToUint32 (low32 a)) ∧
      t = { s with op := 0b00#2, a := a, r := t.r, pc := s.pc + 1, responses := s.responses ++ [t.r] }

/-- 40_fp32_bitcast.md R86. As for R85, with the code `01`. -/
def Obligations.Uint32ToFp32AnswersOperandBits : Prop :=
  ∀ (a : Bus) (s : State),
    decode (0b01#2 ++ a) = .uint32ToFp32Bitcast a ∧
    ∃ t, exec (.uint32ToFp32Bitcast a) s = .next t ∧
      (∀ i, t.r.getLsbD i = (decide (i < 32) && a.getLsbD i)) ∧
      t.r = zext64 (uint32ToFp32 (low32 a)) ∧
      t = { s with op := 0b01#2, a := a, r := t.r, pc := s.pc + 1, responses := s.responses ++ [t.r] }

/-- 41_fp64_bitcast.md R118. The request `10 ++ a` is this instruction; every bit of `a` comes out on `r`; the pair
view of `r` joins back to `a`; nothing but the ports and the host's record of the response changes. -/
def Obligations.Fp64ToUint64AnswersOperandBits : Prop :=
  ∀ (a : Bus) (s : State),
    decode (0b10#2 ++ a) = .fp64ToUint64Bitcast a ∧
    ∃ t, exec (.fp64ToUint64Bitcast a) s = .next t ∧
      (∀ i, t.r.getLsbD i = a.getLsbD i) ∧
      t.r = fp64ToUint64 a ∧
      split t.r = { high := high32 a, low := low32 a } ∧
      join (split t.r).high (split t.r).low = a ∧
      t = { s with op := 0b10#2, a := a, r := t.r, pc := s.pc + 1, responses := s.responses ++ [t.r] }

/-- 41_fp64_bitcast.md R119. The request `11 ++ a` is this instruction; every bit of `a` comes out on `r`, and so
for `a = join(high, low)`; nothing but the ports and the host's record of the response changes. -/
def Obligations.Uint64ToFp64AnswersOperandBits : Prop :=
  ∀ (a : Bus) (s : State),
    decode (0b11#2 ++ a) = .uint64ToFp64Bitcast a ∧
    a = join (high32 a) (low32 a) ∧
    ∃ t, exec (.uint64ToFp64Bitcast a) s = .next t ∧
      (∀ i, t.r.getLsbD i = a.getLsbD i) ∧
      t.r = uint64ToFp64 (join (high32 a) (low32 a)) ∧
      t = { s with op := 0b11#2, a := a, r := t.r, pc := s.pc + 1, responses := s.responses ++ [t.r] }

/-- The frame of all four instructions (fp32ToUint32Bitcast, uint32ToFp32Bitcast, fp64ToUint64Bitcast,
uint64ToFp64Bitcast). The ports carry the request and the response; the host's index moves on by 1 and the response
is noted behind the earlier ones; the program, the block (which has no register, flag or memory: 10_state.md R20)
and every earlier response stay. -/
def Obligations.InstructionsChangeOnlyPortsAndRecord : Prop :=
  ∀ (i : Instr) (s t : State), exec i s = .next t →
    t.block = s.block ∧ t.program = s.program ∧
    t.op = i.op ∧ t.a = i.operandBus ∧ t.pc = s.pc + 1 ∧
    t.responses.length = s.responses.length + 1 ∧
    t.responses[s.responses.length]? = some t.r ∧
    ∀ k, k < s.responses.length → t.responses[k]? = s.responses[k]?

/-! ### The block as one function -/

/-- 30_encoding.md R71: the machine drives `Block(op, a)`, whose arms are the four operations at their widths, and
which is `a` when `op[1] = 1` and `zext_64(a[31:0])` when `op[1] = 0`. -/
def Obligations.EveryRequestAnswersBlockFunction : Prop :=
  ∀ (op : OpSelect) (a : Bus) (s : State), ∃ t,
    exec (decodeRequest op a) s = .next t ∧
    t.r = blockFunction op a ∧
    blockFunction 0b00#2 a = zext64 (fp32ToUint32 (low32 a)) ∧
    blockFunction 0b01#2 a = zext64 (uint32ToFp32 (low32 a)) ∧
    blockFunction 0b10#2 a = fp64ToUint64 a ∧
    blockFunction 0b11#2 a = uint64ToFp64 a ∧
    (op[1] = true → t.r = a) ∧
    (op[1] = false → t.r = zext64 (low32 a))

/-- 30_encoding.md R62: the operand of a 32-bit operation is `a[31:0]`, and no value of `a[63:32]` changes the
response. -/
def Obligations.UpperOperandHalfIgnoredAt32Bits : Prop :=
  ∀ (op : OpSelect) (a b : Bus) (s : State), op[1] = false → low32 a = low32 b →
    ∃ t u, exec (decodeRequest op a) s = .next t ∧ exec (decodeRequest op b) s = .next u ∧
      low32 t.r = low32 a ∧ t.r = u.r ∧ t.responses = u.responses

/-- 30_encoding.md R64: a 32-bit result on `r[31:0]` with `r[63:32] = 0`; a 64-bit result whole, its pair view
being `r[63:32]` and `r[31:0]`. -/
def Obligations.ResultBusAssembledByWidth : Prop :=
  ∀ (a : Bus) (s : State),
    (∃ t, exec (.fp32ToUint32Bitcast a) s = .next t ∧ t.r = zext64 (fp32ToUint32 (low32 a)) ∧
      low32 t.r = fp32ToUint32 (low32 a) ∧ high32 t.r = 0) ∧
    (∃ t, exec (.uint32ToFp32Bitcast a) s = .next t ∧ t.r = zext64 (uint32ToFp32 (low32 a)) ∧
      low32 t.r = uint32ToFp32 (low32 a) ∧ high32 t.r = 0) ∧
    (∃ t, exec (.fp64ToUint64Bitcast a) s = .next t ∧ t.r = fp64ToUint64 a ∧
      split t.r = { high := high32 t.r, low := low32 t.r }) ∧
    (∃ t, exec (.uint64ToFp64Bitcast a) s = .next t ∧ t.r = uint64ToFp64 a ∧
      split t.r = { high := high32 t.r, low := low32 t.r })

/-- 20_memory.md R42 with 00_scope.md R8: every bit and every byte lane an operation moves stays in its place. -/
def Obligations.BitsAndByteLanesKeepTheirPlaces : Prop :=
  ∀ (op : OpSelect) (a : Bus) (s : State), ∃ t,
    exec (decodeRequest op a) s = .next t ∧
    (∀ i, i < (if op[1] then 64 else 32) → t.r.getLsbD i = a.getLsbD i) ∧
    (∀ k, k < (if op[1] then 8 else 4) → byteLane t.r k = byteLane a k)

/-- 20_memory.md R43: byte lanes 3..0 of a 64-bit pattern are its low word and lanes 7..4 its high word, for
patterns split from a bus and for joins alike. -/
def Obligations.PairWordsAreByteLanes : Prop :=
  ∀ (high low : Bits32) (k : Nat), k < 4 →
    byteLane (join high low) k = low.extractLsb' (8 * k) 8 ∧
    byteLane (join high low) (4 + k) = high.extractLsb' (8 * k) 8

/-- 10_state.md R27: two presentations of equal requests, in any two states, get equal responses. -/
def Obligations.ResponseDependsOnRequestAlone : Prop :=
  ∀ (w : RequestWord) (s s' : State),
    s.presentation = .request w → s'.presentation = .request w →
    ∃ t t', step s = .next t ∧ step s' = .next t' ∧ t.r = t'.r ∧ t.op = t'.op ∧ t.a = t'.a

/-- 20_memory.md R46: one request presented any number of times gets the same response each time. -/
def Obligations.RepeatedRequestRepeatsResponse : Prop :=
  ∀ (n : Nat) (op : OpSelect) (a : Bus) (s : State), ∃ t,
    Sys2Proof.core.run n (s.load (List.replicate n { op := op, operand := .bits a })) = .next t ∧
    t.responses = List.replicate n (blockFunction op a) ∧ t.block = s.block

/-! ### The laws of the bitcasts -/

/-- 40_fp32_bitcast.md R87: the 32-bit operations are inverse bijections, as functions and at the ports (where
the operand of the second has the low half of the first's response), in any two states. -/
def Obligations.Bitcasts32AreInverse : Prop :=
  (∀ v : Float32Value, uint32ToFp32 (fp32ToUint32 v) = v) ∧
  (∀ b : Bits32, fp32ToUint32 (uint32ToFp32 b) = b) ∧
  (∀ a a' : Bus, low32 a' = low32 (blockFunction 0b00#2 a) → low32 (blockFunction 0b01#2 a') = low32 a) ∧
  (∀ a a' : Bus, low32 a' = low32 (blockFunction 0b01#2 a) → low32 (blockFunction 0b00#2 a') = low32 a) ∧
  (∀ (a a' : Bus) (s s' : State), ∃ t u,
    exec (.fp32ToUint32Bitcast a) s = .next t ∧ exec (.uint32ToFp32Bitcast a') s' = .next u ∧
    (low32 a' = low32 t.r → low32 u.r = low32 a) ∧ (low32 a = low32 u.r → low32 t.r = low32 a'))

/-- 41_fp64_bitcast.md R120: the 64-bit operations are inverse bijections, in the single form and in the pair
form, as functions and at the ports. -/
def Obligations.Bitcasts64AreInverse : Prop :=
  (∀ v : Float64Value, uint64ToFp64 (fp64ToUint64 v) = v) ∧
  (∀ v : Float64Value, bitsToDouble (doubleToBits v).high (doubleToBits v).low = v) ∧
  (∀ h l : Bits32, split (fp64ToUint64 (uint64ToFp64 (join h l))) = { high := h, low := l }) ∧
  (∀ h l : Bits32, doubleToBits (bitsToDouble h l) = { high := h, low := l }) ∧
  (∀ (a : Bus) (s s' : State), ∃ t u,
    exec (.fp64ToUint64Bitcast a) s = .next t ∧ exec (.uint64ToFp64Bitcast t.r) s' = .next u ∧ u.r = a) ∧
  (∀ (h l : Bits32) (s s' : State), ∃ t u,
    exec (.uint64ToFp64Bitcast (join h l)) s = .next t ∧ exec (.fp64ToUint64Bitcast t.r) s' = .next u ∧
    split u.r = { high := h, low := l })

/-- 41_fp64_bitcast.md R116: the join at 64 bits is concatenation; a high half is not lost, a low half is not
sign-extended, and the OR is a sum in which nothing carries or wraps. -/
def Obligations.JoinIsConcatenation : Prop :=
  ∀ h l : Bits32,
    join h l = ((h.setWidth 64 <<< 32) ||| l.setWidth 64) ∧
    join h l = (h ++ l : BitVec 64) ∧
    join 0x00000001#32 0x00000000#32 = 0x0000000100000000#64 ∧
    join 0x00000000#32 0x80000000#32 = 0x0000000080000000#64 ∧
    (zext64 h <<< 32) &&& zext64 l = 0#64 ∧
    join h l = (zext64 h <<< 32) + zext64 l ∧
    (join h l).toNat = h.toNat * 2 ^ 32 + l.toNat

/-- 41_fp64_bitcast.md R117: the split is `(v[63:32], v[31:0])`, and split and join are inverse. -/
def Obligations.SplitAndJoinAreInverse : Prop :=
  (∀ (v : Bits64) (i : Nat), (split v).high.getLsbD i = (decide (i < 32) && v.getLsbD (32 + i)) ∧
    (split v).low.getLsbD i = (decide (i < 32) && v.getLsbD i)) ∧
  (∀ h l : Bits32, split (join h l) = { high := h, low := l }) ∧
  (∀ v : Bits64, join (split v).high (split v).low = v)

/-- 41_fp64_bitcast.md R122: the pair interface is a fixed view of the 64-bit ports, the two halves of a response
coming from one request. -/
def Obligations.PairInterfaceIsViewOfBus : Prop :=
  ∀ (a : Bus) (high low : Bits32) (s : State), high32 a = high → low32 a = low →
    (∃ t, exec (.uint64ToFp64Bitcast a) s = .next t ∧ t.r = bitsToDouble high low) ∧
    (∃ t, exec (.fp64ToUint64Bitcast a) s = .next t ∧
      high32 t.r = (doubleToBits a).high ∧ low32 t.r = (doubleToBits a).low ∧
      high32 t.r = high ∧ low32 t.r = low)

/-- 40_fp32_bitcast.md R88: a NaN goes through either 32-bit operation with its kind, sign and payload. -/
def Obligations.NansCarriedUnchangedAt32Bits : Prop :=
  ∀ (op : OpSelect) (a : Bus) (s : State) (quiet : Bool), op[1] = false → class32 (low32 a) = .nan quiet →
    ∃ t, exec (decodeRequest op a) s = .next t ∧
      class32 (low32 t.r) = .nan quiet ∧ sign32 (low32 t.r) = sign32 (low32 a) ∧
      mantissa32 (low32 t.r) = mantissa32 (low32 a) ∧ low32 t.r = low32 a

/-- 40_fp32_bitcast.md R89: either 32-bit operation carries both zeros and every subnormal unchanged. -/
def Obligations.ZerosAndSubnormalsCarriedAt32Bits : Prop :=
  ∀ (op : OpSelect) (a : Bus) (s : State), op[1] = false →
    ∃ t, exec (decodeRequest op a) s = .next t ∧
      (∀ negative, class32 (low32 a) = .zero negative →
        class32 (low32 t.r) = .zero negative ∧ low32 t.r = (if negative then 0x80000000#32 else 0#32)) ∧
      (class32 (low32 a) = .subnormal → class32 (low32 t.r) = .subnormal ∧ low32 t.r = low32 a)

/-- 41_fp64_bitcast.md R121: at 64 bits too, class, sign, exponent and mantissa all come out as they went in. -/
def Obligations.EveryClassCarriedUnchangedAt64Bits : Prop :=
  ∀ (op : OpSelect) (a : Bus) (s : State), op[1] = true →
    ∃ t, exec (decodeRequest op a) s = .next t ∧
      class64 t.r = class64 a ∧ sign64 t.r = sign64 a ∧ exponent64 t.r = exponent64 a ∧
      mantissa64 t.r = mantissa64 a ∧ t.r = a

/-! ### Encoding -/

/-- 30_encoding.md R60, R61, R66: every instruction survives encoding and decoding, and every one of the 2^66
words survives decoding and encoding. -/
def Obligations.DecodeAndEncodeAgree : Prop :=
  (∀ i : Instr, decode (encode i) = i) ∧ (∀ w : RequestWord, encode (decode w) = w)

/-- spec/opcode_table.json: a word has a row's match under its mask exactly when it decodes to that row's
instruction, with `a` the low 64 bits. -/
def Obligations.DecodeFollowsTableMasks : Prop :=
  ∀ w : RequestWord,
    (w &&& 0x30000000000000000#66 = 0x0#66 ↔ decode w = .fp32ToUint32Bitcast (w.setWidth 64)) ∧
    (w &&& 0x30000000000000000#66 = 0x10000000000000000#66 ↔ decode w = .uint32ToFp32Bitcast (w.setWidth 64)) ∧
    (w &&& 0x30000000000000000#66 = 0x20000000000000000#66 ↔ decode w = .fp64ToUint64Bitcast (w.setWidth 64)) ∧
    (w &&& 0x30000000000000000#66 = 0x30000000000000000#66 ↔ decode w = .uint64ToFp64Bitcast (w.setWidth 64))

/-- Serialised requests written out in 95_test_vectors.md, one of each operation, decode to what they stand for. -/
def Obligations.SampleWordsDecode : Prop :=
  decode 0x0000000007F800001#66 = .fp32ToUint32Bitcast 0x000000007F800001#64 ∧
  decode 0x1BFF0000000000000#66 = .uint32ToFp32Bitcast 0xBFF0000000000000#64 ∧
  decode 0x20000000080000000#66 = .fp64ToUint64Bitcast 0x0000000080000000#64 ∧
  decode 0x30000000100000000#66 = .uint64ToFp64Bitcast 0x0000000100000000#64

/-- A bare number is rejected exactly when it needs more than 66 bits; any other is a request that encodes back to
it. Model's choice of boundary: log 6 (10_state.md R32, 60_exceptions.md R153, 30_encoding.md R66). -/
def Obligations.OnlyTooWideNumbersAreRejected : Prop :=
  ∀ w : Nat,
    (decodeNat w = .error .widerThanRequest ↔ 2 ^ 66 ≤ w) ∧
    (w < 2 ^ 66 → ∃ i, decodeNat w = .ok i ∧ (encode i).toNat = w)

/-! ### The step and the host's sequence -/

/-- A step runs the decoded instruction: where the line at the host's index puts `a` on the operand bus, the step
is that of the decoded request `op ++ a`, and adds nothing around it. -/
def Obligations.StepRunsDecodedRequest : Prop :=
  ∀ (s : State) (l : ProgramLine) (a : Bus),
    s.program[s.pc]? = some l → operandBits s.responses l.operand = some a →
    step s = exec (decode (serialise l.op a)) s

/-- 30_encoding.md R68 and 90_conflicts.md C8: a line `@k` puts the whole 64-bit response of request `k` on `a`,
and the block answers it. -/
def Obligations.ChainedOperandIsWholeResponse : Prop :=
  ∀ (s : State) (op : OpSelect) (k : Nat) (x : Bus),
    s.program[s.pc]? = some { op := op, operand := .chain k } → s.responses[k]? = some x →
    ∃ t, step s = .next t ∧ t.op = op ∧ t.a = x ∧ t.r = blockFunction op x ∧
      t.responses = s.responses ++ [blockFunction op x]

/-- Model's choice (log 3): past the last line the host presents nothing and the step changes nothing. -/
def Obligations.StepAfterLastRequestChangesNothing : Prop :=
  ∀ s : State, s.program.length ≤ s.pc → step s = .next s

/-- Model's choice (log 4) under 60_exceptions.md R153: the only step that is refused is one at a line `@k` whose
request `k` has no response yet. No request of the block is refused. -/
def Obligations.OnlyOpenChainsAreRefused : Prop :=
  ∀ (s : State) (ρ : Refusal),
    step s = .refused ρ ↔
      ρ = .openChain ∧ ∃ op k, s.program[s.pc]? = some { op := op, operand := .chain k } ∧ s.responses.length ≤ k

/-- 10_state.md R22: the host's index advances by exactly 1 for every request and never branches or wraps; no step
changes the program. That it stays where it is past the last line is no part of R22: model's choice (log 3). -/
def Obligations.IndexAdvancesByOnePerRequest : Prop :=
  ∀ s t : State, step s = .next t →
    t.program = s.program ∧
    (s.pc < s.program.length → t.pc = s.pc + 1) ∧ (s.program.length ≤ s.pc → t.pc = s.pc)

/-- The model's loading of one word (logs 5 and 6): the next step runs exactly that request, and nothing but the
program's line at the index is changed. -/
def Obligations.PlacedWordRunsNext : Prop :=
  ∀ (s : State) (nbits : Nat) (w : RequestWord),
    step (s.withFetchWord nbits w.toNat) = exec (decode w) (s.withFetchWord nbits w.toNat) ∧
    (s.withFetchWord nbits w.toNat) = { s with program := (s.withFetchWord nbits w.toNat).program } ∧
    (∀ k, k ≠ s.pc → k < s.program.length → (s.withFetchWord nbits w.toNat).program[k]? = s.program[k]?)

/-- 70_reset_and_hazards.md R161: the first request after reset has its ordinary response. -/
def Obligations.FirstRequestAfterResetAnswersBlock : Prop :=
  ∀ (op : OpSelect) (a : Bus) (nbits : Nat), ∃ t,
    step (State.reset.withFetchWord nbits (serialise op a).toNat) = .next t ∧
    t.op = op ∧ t.a = a ∧ t.r = blockFunction op a ∧ t.pc = 1 ∧ t.responses = [blockFunction op a]

/-! ### Invariant and runs -/

/-- 10_state.md R22, R33: the reset state meets the invariant. Its port values are the model's choice (log 2), its
empty program is log 5. -/
def Obligations.ResetStateMeetsRunContract : Prop := State.reset.Inv

/-- Every step from a state that meets the invariant gives one that does: `r` is `Block(op, a)`
(10_state.md R33), the index counts the responses (R22) and stays within the program, and every response is the one
due to its own line (30_encoding.md R68, R71). -/
def Obligations.EveryStepKeepsRunContract : Prop :=
  ∀ s t : State, s.Inv → step s = .next t → t.Inv

/-- A legal program loaded where the ports agree meets the invariant (30_encoding.md R68; log 5 for loading). -/
def Obligations.LoadedLegalProgramMeetsRunContract : Prop :=
  ∀ (s : State) (ts : List Text) (p : List ProgramLine), s.PortsAgree → assemble ts = some p → (s.load p).Inv

/-- 60_exceptions.md R153: while a request is left, a good state steps to the state with the due response. -/
def Obligations.PendingRequestGetsDueResponse : Prop :=
  ∀ s : State, s.Inv → s.pc < s.program.length →
    ∃ t v, step s = .next t ∧ s.dueResponse s.pc = some v ∧
      t.responses = s.responses ++ [v] ∧ t.pc = s.pc + 1 ∧ t.r = v

/-- 70_reset_and_hazards.md R167: from every good state the run ends when the last request has its response, with
nothing pending, and its end state is the list of responses, each the one due to its line. -/
def Obligations.RunEndsWithEveryDueResponse : Prop :=
  ∀ s : State, s.Inv → ∃ t,
    Sys2Proof.core.run (s.program.length - s.pc) s = .next t ∧
    t.program = s.program ∧ t.pc = s.program.length ∧ t.presentation = .noRequest ∧
    t.responses.length = s.program.length ∧
    (∀ k, k < s.responses.length → t.responses[k]? = s.responses[k]?) ∧
    ∀ k, k < s.program.length → ∃ v, t.responses[k]? = some v ∧ t.dueResponse k = some v

/-! ### Text -/

/-- 30_encoding.md R68, R70: the assembler reads what the disassembler prints, and gets the request back, the upper
half of a 32-bit operand as 0. -/
def Obligations.AssemblerReadsDisassembly : Prop :=
  ∀ (op : OpSelect) (a : Bus),
    readLine (disassemble op a) =
      some { op := op, operand := .bits (if op[1] then a else zext64 (low32 a)) }

/-- 30_encoding.md R68: the source's name of an operation spells the same request as its mnemonic. -/
def Obligations.SourceNamesSpellSameRequests : Prop :=
  ∀ (op : OpSelect) (operand : Text),
    readLine (sourceName op ++ ' ' :: operand) = readLine (mnemonic op ++ ' ' :: operand)

/-- 30_encoding.md R68: the pair form `<high>, <low>` gives `a = high ++ low` to a 64-bit operation and is no
operand of a 32-bit one (spacing: log 9). -/
def Obligations.PairFormJoinsHalves : Prop :=
  ∀ (op : OpSelect) (high low : Bits32),
    readLine (mnemonic op ++ ' ' :: '0' :: 'x' :: (hexDigits 8 high.toNat ++
      ',' :: ' ' :: '0' :: 'x' :: hexDigits 8 low.toNat)) =
    if op[1] then some { op := op, operand := .bits (high ++ low) } else none

/-! ### Readings of encodings (general knowledge in the spec itself: log 8) -/

/-- 40_fp32_bitcast.md R80, 41_fp64_bitcast.md R110: sign, exponent and mantissa, in that order, are the whole
encoding. -/
def Obligations.FieldsMakeUpEncoding : Prop :=
  (∀ v : Float32Value, v = (BitVec.ofBool (sign32 v) ++ exponent32 v ++ mantissa32 v : BitVec 32)) ∧
  (∀ v : Float64Value, v = (BitVec.ofBool (sign64 v) ++ exponent64 v ++ mantissa64 v : BitVec 64))

/-- 40_fp32_bitcast.md R81, R83: by the magnitude `v[30:0]`, the classes are consecutive ranges; the sign is bit 31
and the quiet bit is bit 22. -/
def Obligations.Binary32ClassesAreMagnitudeRanges : Prop :=
  ∀ v : Float32Value,
    (∀ b, class32 v = .zero b ↔ v.toNat % 2 ^ 31 = 0 ∧ v[31] = b) ∧
    (class32 v = .subnormal ↔ 0 < v.toNat % 2 ^ 31 ∧ v.toNat % 2 ^ 31 < 0x00800000) ∧
    (class32 v = .normal ↔ 0x00800000 ≤ v.toNat % 2 ^ 31 ∧ v.toNat % 2 ^ 31 < 0x7F800000) ∧
    (∀ b, class32 v = .infinity b ↔ v.toNat % 2 ^ 31 = 0x7F800000 ∧ v[31] = b) ∧
    (∀ q, class32 v = .nan q ↔ 0x7F800000 < v.toNat % 2 ^ 31 ∧ v[22] = q)

/-- 41_fp64_bitcast.md R111, R113: the same at 64 bits, the quiet bit being bit 51. -/
def Obligations.Binary64ClassesAreMagnitudeRanges : Prop :=
  ∀ v : Float64Value,
    (∀ b, class64 v = .zero b ↔ v.toNat % 2 ^ 63 = 0 ∧ v[63] = b) ∧
    (class64 v = .subnormal ↔ 0 < v.toNat % 2 ^ 63 ∧ v.toNat % 2 ^ 63 < 0x0010000000000000) ∧
    (class64 v = .normal ↔ 0x0010000000000000 ≤ v.toNat % 2 ^ 63 ∧ v.toNat % 2 ^ 63 < 0x7FF0000000000000) ∧
    (∀ b, class64 v = .infinity b ↔ v.toNat % 2 ^ 63 = 0x7FF0000000000000 ∧ v[63] = b) ∧
    (∀ q, class64 v = .nan q ↔ 0x7FF0000000000000 < v.toNat % 2 ^ 63 ∧ v[51] = q)

/-- 40_fp32_bitcast.md R82, 41_fp64_bitcast.md R112: turning the sign bit over turns the number's sign over, and
tells the two zeros apart. -/
def Obligations.SignBitNegatesNumber : Prop :=
  (∀ (v : Float32Value) (q : ℚ), number32 v = some (.nonzero q) →
    number32 (v ^^^ 0x80000000#32) = some (.nonzero (-q))) ∧
  (∀ (v : Float32Value) (b : Bool), number32 v = some (.zero b) → number32 (v ^^^ 0x80000000#32) = some (.zero !b)) ∧
  (∀ (v : Float64Value) (q : ℚ), number64 v = some (.nonzero q) →
    number64 (v ^^^ 0x8000000000000000#64) = some (.nonzero (-q))) ∧
  (∀ (v : Float64Value) (b : Bool), number64 v = some (.zero b) →
    number64 (v ^^^ 0x8000000000000000#64) = some (.zero !b))

/-- Model's choice (log 10): exactly the infinities and the NaNs, whose exponent is all ones (R81, R111), denote no
number. -/
def Obligations.OnlyAllOnesExponentDenotesNoNumber : Prop :=
  (∀ v : Float32Value, number32 v = none ↔ exponent32 v = 0xFF#8) ∧
  (∀ v : Float64Value, number64 v = none ↔ exponent64 v = 0x7FF#11)

/-- 40_fp32_bitcast.md R82, 41_fp64_bitcast.md R112: the encodings the source names denote 1 and -1. -/
def Obligations.SourceExamplesDenoteOne : Prop :=
  number32 0x3F800000#32 = some (.nonzero 1) ∧ number32 0xBF800000#32 = some (.nonzero (-1)) ∧
  number64 0x3FF0000000000000#64 = some (.nonzero 1)
end

