-- ==== Sys2Proof/Laws/Assembler.lean ====
section
/-!
SUPPORT. Digits written are the digits read, and names are found again.
-/

namespace Sys2Proof.Machine

@[simp] theorem hexValue_hexDigit {d : Nat} (h : d < 16) : hexValue (hexDigit d) = some d := by
  revert d; decide

@[simp] theorem length_hexDigits (n v : Nat) : (hexDigits n v).length = n := by
  induction n generalizing v with
  | zero => rfl
  | succ n ih => simp [hexDigits, ih]

/-- Reading two texts one after the other. -/
theorem readDigits_append (base : Nat) (value : Char → Option Nat) (acc : Nat) (t u : Text) :
    readDigits base value acc (t ++ u) = (readDigits base value acc t).bind (readDigits base value · u) := by
  induction t generalizing acc with
  | nil => rfl
  | cons c cs ih => cases h : value c <;> simp [readDigits, h, ih]

/-- The digits of `v` read back to `v`, as far as `n` digits hold it. -/
theorem readDigits_hexDigits (n v : Nat) :
    readDigits 16 hexValue 0 (hexDigits n v) = some (v % 16 ^ n) := by
  induction n generalizing v with
  | zero => simp [hexDigits, readDigits, Nat.mod_one]
  | succ n ih =>
    have hd : v % 16 < 16 := Nat.mod_lt _ (by decide)
    simp only [hexDigits, readDigits_append, ih, Option.bind_some, readDigits, hexValue_hexDigit hd]
    congr 1
    rw [pow_succ, Nat.mul_comm (16 ^ n) 16, Nat.mod_mul]
    omega

/-- A literal of `n` digits reads back. -/
theorem readHex_hexDigits (n v : Nat) :
    readHex n ('0' :: 'x' :: hexDigits n v) = some (v % 16 ^ n) := by
  simp [readHex, readDigits_hexDigits]

end Sys2Proof.Machine
end

