-- ==== Sys2Proof/Laws/Decode.lean ====
section
/-!
SUPPORT. The fields of a serialised request, and the two fields of an instruction.
-/

namespace Sys2Proof

@[simp] theorem opField_serialise (op : OpSelect) (a : Bus) :
    RequestWord.opField (serialise op a) = op := by
  apply BitVec.eq_of_getLsbD_eq
  intro i hi
  rw [RequestWord.opField, serialise, BitVec.getLsbD_extractLsb', BitVec.getLsbD_append,
    if_neg (by omega), decide_eq_true hi, Bool.true_and, Nat.add_sub_cancel_left]

@[simp] theorem operandField_serialise (op : OpSelect) (a : Bus) :
    RequestWord.operandField (serialise op a) = a := by
  apply BitVec.eq_of_getLsbD_eq
  intro i hi
  rw [RequestWord.operandField, serialise, BitVec.getLsbD_extractLsb', BitVec.getLsbD_append,
    if_pos (by omega), decide_eq_true hi, Bool.true_and, Nat.zero_add]

/-- A word is its two fields (30_encoding.md R60). -/
@[simp] theorem serialise_fields (w : RequestWord) :
    serialise (RequestWord.opField w) (RequestWord.operandField w) = w := by
  apply BitVec.eq_of_getLsbD_eq
  intro i hi
  simp only [RequestWord.opField, RequestWord.operandField, serialise, BitVec.getLsbD_append,
    BitVec.getLsbD_extractLsb']
  split
  · simp [*]
  · rw [show 64 + (i - 64) = i by omega, decide_eq_true (show i - 64 < 2 by omega), Bool.true_and]

/-- A property of every operation code is a property of the four. -/
theorem forall_opSelect {p : OpSelect → Prop} (h0 : p 0b00#2) (h1 : p 0b01#2) (h2 : p 0b10#2) (h3 : p 0b11#2) :
    ∀ op, p op := by
  intro op
  have h : op = 0b00#2 ∨ op = 0b01#2 ∨ op = 0b10#2 ∨ op = 0b11#2 := by revert op; decide
  rcases h with rfl | rfl | rfl | rfl <;> assumption

@[simp] theorem decodeRequest_op (op : OpSelect) (a : Bus) : (decodeRequest op a).op = op := by
  revert op; exact forall_opSelect rfl rfl rfl rfl

@[simp] theorem decodeRequest_operandBus (op : OpSelect) (a : Bus) : (decodeRequest op a).operandBus = a := by
  revert op; exact forall_opSelect rfl rfl rfl rfl

/-- Decoding a serialised request reads its own two fields. -/
@[simp] theorem decode_serialise (op : OpSelect) (a : Bus) : decode (serialise op a) = decodeRequest op a := by
  simp [decode]

end Sys2Proof
end

