-- ==== Sys2Proof/Laws/Formats.lean ====
section
/-!
SUPPORT. The magnitude of an encoding is its exponent and mantissa fields put together.
-/

namespace Sys2Proof.Machine

/-- `v[30:0]` of a binary32 encoding, by its fields (40_fp32_bitcast.md R80). -/
theorem magnitude32 (v : Float32Value) :
    v.toNat % 2 ^ 31 = (exponent32 v).toNat * 2 ^ 23 + (mantissa32 v).toNat := by
  have := v.isLt
  simp [exponent32, mantissa32, Nat.shiftRight_eq_div_pow]
  omega

/-- `v[62:0]` of a binary64 encoding, by its fields (41_fp64_bitcast.md R110). -/
theorem magnitude64 (v : Float64Value) :
    v.toNat % 2 ^ 63 = (exponent64 v).toNat * 2 ^ 52 + (mantissa64 v).toNat := by
  have := v.isLt
  simp [exponent64, mantissa64, Nat.shiftRight_eq_div_pow]
  omega

@[simp] theorem signFactor_not (s : Bool) : signFactor (!s) = -signFactor s := by
  cases s <;> simp [signFactor]

end Sys2Proof.Machine
end

