-- ==== Sys2Proof/Laws/Operands.lean ====
section
/-!
SUPPORT. The operand forms bit by bit: each is unfolded here once.
-/

namespace Sys2Proof.Machine

@[simp] theorem getLsbD_low32 (v : BitVec 64) (i : Nat) :
    (low32 v).getLsbD i = (decide (i < 32) && v.getLsbD i) := by
  simp [low32]

@[simp] theorem getLsbD_high32 (v : BitVec 64) (i : Nat) :
    (high32 v).getLsbD i = (decide (i < 32) && v.getLsbD (32 + i)) := by
  simp [high32]

@[simp] theorem getLsbD_zext64 (v : BitVec 32) (i : Nat) : (zext64 v).getLsbD i = v.getLsbD i := by
  by_cases h : i < 64
  · simp [zext64, h]
  · simp [zext64, h, BitVec.getLsbD_of_ge v i (by omega)]

/-- Bit `i` of a join comes from the low half below 32 and from the high half above. -/
theorem getLsbD_join (h l : Bits32) (i : Nat) :
    (join h l).getLsbD i = if i < 32 then l.getLsbD i else h.getLsbD (i - 32) := by
  unfold join
  rw [BitVec.getLsbD_or, BitVec.getLsbD_shiftLeft, getLsbD_zext64, getLsbD_zext64]
  by_cases h1 : i < 32
  · simp [h1]
  · rw [BitVec.getLsbD_of_ge l i (by omega)]
    by_cases h2 : i < 64
    · simp [h1, h2]
    · simp [h1, h2, BitVec.getLsbD_of_ge h (i - 32) (by omega)]

@[simp] theorem low32_zext64 (v : BitVec 32) : low32 (zext64 v) = v := by
  apply BitVec.eq_of_getLsbD_eq
  intro i hi
  rw [getLsbD_low32, getLsbD_zext64, decide_eq_true hi, Bool.true_and]

@[simp] theorem high32_zext64 (v : BitVec 32) : high32 (zext64 v) = 0#32 := by
  apply BitVec.eq_of_getLsbD_eq
  intro i hi
  rw [getLsbD_high32, getLsbD_zext64, BitVec.getLsbD_of_ge v (32 + i) (by omega), Bool.and_false,
    BitVec.getLsbD_zero]

end Sys2Proof.Machine
end

