-- ==== Sys2Proof/Laws/Ops.lean ====
section
/-!
SUPPORT. What the shared operations on the host's side can do: each is unfolded here once.
-/

namespace Sys2Proof.Machine

/-- Responses already given keep their place when one more is noted. -/
theorem operandBits_append {responses : List Bus} {o : Operand} {a : Bus} (more : List Bus)
    (h : operandBits responses o = some a) : operandBits (responses ++ more) o = some a := by
  cases o with
  | bits b => exact h
  | chain k =>
    have hk : k < responses.length := (List.getElem?_eq_some_iff.mp h).1
    simpa [operandBits, List.getElem?_append_left hk] using h

/-- A legal operand has its bits once every earlier request is answered. -/
theorem operandBits_of_legal {responses : List Bus} {o : Operand} {i : Nat}
    (hl : o.legalAt i = true) (hi : i ≤ responses.length) : ∃ a, operandBits responses o = some a := by
  cases o with
  | bits a => exact ⟨a, rfl⟩
  | chain k =>
    have hk : k < responses.length := lt_of_lt_of_le (by simpa [Operand.legalAt] using hl) hi
    exact ⟨responses[k], List.getElem?_eq_getElem hk⟩

/-- Every line of a legal program is legal where it stands. -/
theorem legalAt_of_legalFrom {p : List ProgramLine} {i k : Nat} {l : ProgramLine}
    (hp : legalFrom i p = true) (hk : p[k]? = some l) : l.operand.legalAt (i + k) = true := by
  induction p generalizing i k with
  | nil => simp at hk
  | cons l' ls ih =>
    simp only [legalFrom, Bool.and_eq_true] at hp
    cases k with
    | zero => simp at hk; subst hk; exact hp.1
    | succ k =>
      have := ih hp.2 (by simpa using hk)
      rwa [show i + 1 + k = i + (k + 1) by omega] at this

/-- What is presented, said once: nothing past the program, the request of a line whose operand has its bits, and an
open chain otherwise. -/
theorem presentation_cases (s : State) :
    (s.program[s.pc]? = none ∧ s.presentation = .noRequest) ∨
    (∃ l a, s.program[s.pc]? = some l ∧ operandBits s.responses l.operand = some a ∧
      s.presentation = .request (serialise l.op a)) ∨
    (∃ l, s.program[s.pc]? = some l ∧ operandBits s.responses l.operand = none ∧ s.presentation = .openChain) := by
  unfold State.presentation presentLine
  cases hl : s.program[s.pc]? with
  | none => simp
  | some l => cases ha : operandBits s.responses l.operand <;> simp [ha]

/-- The line is found where it was placed. -/
theorem placeLine_getElem?_self (p : List ProgramLine) (pc : Nat) (l : ProgramLine) :
    (placeLine p pc l)[pc]? = some l := by
  unfold placeLine
  rw [List.getElem?_set_self]
  simp only [List.length_append, List.length_replicate]
  omega

/-- The other lines stay. -/
theorem placeLine_getElem?_of_ne {p : List ProgramLine} {pc k : Nat} (l : ProgramLine)
    (hne : k ≠ pc) (hk : k < p.length) : (placeLine p pc l)[k]? = p[k]? := by
  unfold placeLine
  rw [List.getElem?_set_ne (Ne.symm hne), List.getElem?_append_left hk]

end Sys2Proof.Machine
end

