-- ==== Sys2Proof/Laws/PerInstr.lean ====
section
/-!
SUPPORT. Statements for every instruction, made instruction by instruction.
-/

namespace Sys2Proof.Laws.EncodeFields

/-- An instruction's word has its operation code in bits 65..64 and its operand bus in bits 63..0
(30_encoding.md R60, R61). -/
def Statement (i : Instr) : Prop :=
  RequestWord.opField (encode i) = i.op ∧ RequestWord.operandField (encode i) = i.operandBus

theorem fp32ToUint32Bitcast (a : Bus) : Statement (.fp32ToUint32Bitcast a) :=
  ⟨opField_serialise _ _, operandField_serialise _ _⟩

theorem uint32ToFp32Bitcast (a : Bus) : Statement (.uint32ToFp32Bitcast a) :=
  ⟨opField_serialise _ _, operandField_serialise _ _⟩

theorem fp64ToUint64Bitcast (a : Bus) : Statement (.fp64ToUint64Bitcast a) :=
  ⟨opField_serialise _ _, operandField_serialise _ _⟩

theorem uint64ToFp64Bitcast (a : Bus) : Statement (.uint64ToFp64Bitcast a) :=
  ⟨opField_serialise _ _, operandField_serialise _ _⟩

end Sys2Proof.Laws.EncodeFields
end

