-- ==== Sys2Proof/Laws/State.lean ====
section
/-!
SUPPORT. What each field of State is after each update, so that no proof unfolds a record update.
-/

namespace Sys2Proof.Machine

section respond
variable (op : OpSelect) (a v : Bus) (s : State)

@[simp] theorem State.respond_op : (s.respond op a v).op = op := rfl
@[simp] theorem State.respond_a : (s.respond op a v).a = a := rfl
@[simp] theorem State.respond_r : (s.respond op a v).r = v := rfl
@[simp] theorem State.respond_program : (s.respond op a v).program = s.program := rfl
@[simp] theorem State.respond_pc : (s.respond op a v).pc = s.pc + 1 := rfl
@[simp] theorem State.respond_responses : (s.respond op a v).responses = s.responses ++ [v] := rfl

end respond

section load
variable (p : List ProgramLine) (s : State)

@[simp] theorem State.load_op : (s.load p).op = s.op := rfl
@[simp] theorem State.load_a : (s.load p).a = s.a := rfl
@[simp] theorem State.load_r : (s.load p).r = s.r := rfl
@[simp] theorem State.load_program : (s.load p).program = p := rfl
@[simp] theorem State.load_pc : (s.load p).pc = 0 := rfl
@[simp] theorem State.load_responses : (s.load p).responses = [] := rfl

end load

section withFetchWord
variable (nbits w : Nat) (s : State)

@[simp] theorem State.withFetchWord_op : (s.withFetchWord nbits w).op = s.op := rfl
@[simp] theorem State.withFetchWord_a : (s.withFetchWord nbits w).a = s.a := rfl
@[simp] theorem State.withFetchWord_r : (s.withFetchWord nbits w).r = s.r := rfl
@[simp] theorem State.withFetchWord_pc : (s.withFetchWord nbits w).pc = s.pc := rfl
@[simp] theorem State.withFetchWord_responses : (s.withFetchWord nbits w).responses = s.responses := rfl
@[simp] theorem State.withFetchWord_program :
    (s.withFetchWord nbits w).program =
      placeLine s.program s.pc (ProgramLine.ofWord (BitVec.ofNat 66 w)) := rfl

end withFetchWord

@[simp] theorem State.afterLastRequest_eq (s : State) : s.afterLastRequest = s := rfl

/-- `r` in the reset state is the block's response to the inputs there (10_state.md R33). -/
theorem State.r_of_reset : State.reset.r = blockFunction State.reset.op State.reset.a := by decide

end Sys2Proof.Machine
end

