-- ==== Sys2Proof/Laws/Step.lean ====
section
/-!
SUPPORT. What an instruction and a step can do, said once; later proofs cite these instead of unfolding.
-/

namespace Sys2Proof.Machine

/-- Every instruction answers its request, and does nothing else. -/
theorem exec_responds (i : Instr) (s : State) :
    ∃ v, exec i s = .next (s.respond i.op i.operandBus v) := by
  cases i <;> exact ⟨_, rfl⟩

/-- An instruction is refused in no state. -/
theorem exec_ne_refused (i : Instr) (s : State) (ρ : Refusal) : exec i s ≠ .refused ρ := by
  obtain ⟨v, h⟩ := exec_responds i s
  simp [h]

/-- A step with next state `t` ran the request presented, or found the program at its end. -/
theorem step_next_cases {s t : State} (h : step s = .next t) :
    (s.program[s.pc]? = none ∧ t = s) ∨
    (∃ l a, s.program[s.pc]? = some l ∧ operandBits s.responses l.operand = some a ∧
      exec (decodeRequest l.op a) s = .next t) := by
  unfold step at h
  rcases presentation_cases s with ⟨hl, hp⟩ | ⟨l, a, hl, ha, hp⟩ | ⟨l, hl, ha, hp⟩
  · rw [hp] at h
    exact .inl ⟨hl, by simpa using h.symm⟩
  · rw [hp] at h
    exact .inr ⟨l, a, hl, ha, by simpa using h⟩
  · simp [hp] at h

end Sys2Proof.Machine
end

