-- ==== Sys2Proof/Tests/Slice0.lean ====
section
/-!
SUPPORT. The model's own tests. Expected results come from spec/95_test_vectors.md (the vector's name stands at
each test) or from the rule named. The `test_witness_` theorems show states and operands that meet the hypotheses of the
obligation they are named after.
-/

namespace Sys2Proof.Tests

open Sys2Proof.Machine

/-- What an outcome drives on `r`. -/
def answer : Host.Outcome State Fault Refusal → Option Bus
  | .next t => some t.r
  | .fault _ => none
  | .refused _ => none

/-- Program 3 of 95_test_vectors.md. -/
def widthChange : List ProgramLine :=
  [⟨0b10#2, .bits 0xBFF0000000000000#64⟩, ⟨0b01#2, .chain 0⟩, ⟨0b00#2, .chain 0⟩, ⟨0b11#2, .chain 2⟩]

/-- Program 3 with its first request answered. -/
def midRun : State :=
  { block := (), op := 0b10#2, a := 0xBFF0000000000000#64, r := 0xBFF0000000000000#64,
    program := widthChange, pc := 1, responses := [0xBFF0000000000000#64] }

/-- One line presented to a block that has answered nothing. -/
def presenting (l : ProgramLine) : State := State.reset.load [l]

/-! ### Decoding: words written out from the codes of R61 and `op ++ a` of R60 -/

theorem test_decode_fp32 : decode 0x0DEADBEEF3F800000#66 = .fp32ToUint32Bitcast 0xDEADBEEF3F800000#64 := by decide
theorem test_decode_uint32 : decode 0x1123456787F800000#66 = .uint32ToFp32Bitcast 0x123456787F800000#64 := by decide
theorem test_decode_fp64 : decode 0x27FF0000000000001#66 = .fp64ToUint64Bitcast 0x7FF0000000000001#64 := by decide
theorem test_decode_uint64 : decode 0x3FFFFFFFFFFFFFFFF#66 = .uint64ToFp64Bitcast 0xFFFFFFFFFFFFFFFF#64 := by decide
theorem test_table_word : decodeTableWord 72 0x20000000000000000 = some (.fp64ToUint64Bitcast 0#64) := by decide
/-- R153: a number whose `op` would not be 2 bits. -/
theorem test_decode_refuses_67_bits : decodeTableWord 72 0x40000000000000000 = none := by decide

/-! ### Ill-formed terms are refused (R68) -/

theorem test_wellFormed_program : programWellFormed widthChange = true := by decide
theorem test_illFormed_chain_to_itself : programWellFormed [⟨0b00#2, .chain 0⟩] = false := by decide
theorem test_illFormed_chain_ahead :
    programWellFormed [⟨0b00#2, .bits 0#64⟩, ⟨0b01#2, .chain 2⟩, ⟨0b01#2, .bits 0#64⟩] = false := by decide

/-! ### The operations -/

/-- F32-18. -/
theorem test_fp32_ignores_upper_half :
    answer (exec (.fp32ToUint32Bitcast 0xDEADBEEF3F800000#64) State.reset) = some 0x000000003F800000#64 := by decide
/-- F32-19. -/
theorem test_fp32_no_sign_extension :
    answer (exec (.fp32ToUint32Bitcast 0xFFFFFFFF80000000#64) State.reset) = some 0x0000000080000000#64 := by decide
/-- U32-6. -/
theorem test_uint32_keeps_signaling_nan :
    answer (exec (.uint32ToFp32Bitcast 0x000000007F800001#64) State.reset) = some 0x000000007F800001#64 := by decide
/-- U32-12. -/
theorem test_uint32_ignores_upper_half :
    answer (exec (.uint32ToFp32Bitcast 0x123456787F800000#64) State.reset) = some 0x000000007F800000#64 := by decide
/-- F64-17. -/
theorem test_fp64_keeps_all_bits :
    answer (exec (.fp64ToUint64Bitcast 0x3FB999999999999A#64) State.reset) = some 0x3FB999999999999A#64 := by decide
/-- F64-16. -/
theorem test_fp64_pair_view : doubleToBits 0x0000000080000000#64 = ⟨0x00000000#32, 0x80000000#32⟩ := by decide
/-- U64-2. -/
theorem test_uint64_high_not_lost :
    answer (exec (.uint64ToFp64Bitcast (join 0x00000001#32 0x00000000#32)) State.reset) =
      some 0x0000000100000000#64 := by decide
/-- U64-10. -/
theorem test_uint64_pair : bitsToDouble 0xDEADBEEF#32 0x7F800001#32 = 0xDEADBEEF7F800001#64 := by decide

/-! ### The step and the host's sequence -/

/-- Program 3, pc 1. -/
theorem test_step_chains_whole_response : answer (step midRun) = some 0x0000000000000000#64 := by decide
/-- Program 3, pc 0, placed as one serialised word. -/
theorem test_fetch_word_runs :
    answer (step (State.reset.withFetchWord 72 0x2BFF0000000000000)) = some 0xBFF0000000000000#64 := by decide
theorem test_open_chain_refused : step (presenting ⟨0b00#2, .chain 0⟩) = .refused .openChain := rfl
/-- 2.5: one operand on operation 01. -/
theorem test_block_function : blockFunction 0b01#2 0xDEADBEEF7F800001#64 = 0x000000007F800001#64 := by decide

/-! ### Text (R68, R70) -/

theorem test_reads_source_name :
    readLine "floatToBits 0x3F800000".toList = some ⟨0b00#2, .bits 0x000000003F800000#64⟩ := by decide
/-- Program 2, pc 2. -/
theorem test_reads_pair :
    readLine "uint64_to_fp64_bitcast 0x00000001, 0x00000000".toList =
      some ⟨0b11#2, .bits 0x0000000100000000#64⟩ := by decide
theorem test_reads_chain : readLine "fp32_to_uint32_bitcast @10".toList = some ⟨0b00#2, .chain 10⟩ := by decide
/-- Conflict C7: a 16-digit literal is no operand of a 32-bit operation. -/
theorem test_refuses_wrong_width : readLine "fp32_to_uint32_bitcast 0xBFF0000000000000".toList = none := by decide
theorem test_disassembles :
    disassemble 0b01#2 0xDEADBEEF7FBFFFFF#64 = "uint32_to_fp32_bitcast 0x7FBFFFFF".toList := by decide
/-- Program 3 as text. -/
theorem test_assembles_program :
    assemble ["fp64_to_uint64_bitcast 0xBFF0000000000000".toList, "uint32_to_fp32_bitcast @0".toList,
      "fp32_to_uint32_bitcast @0".toList, "uint64_to_fp64_bitcast @2".toList] = some widthChange := by decide

/-! ### Readings: F32-2, 3, 12 to 16, 4, 7, 6 and their 64-bit fellows -/

theorem test_class32_zero : class32 0x80000000#32 = .zero true := by decide
theorem test_class32_subnormal : class32 0x00000001#32 = .subnormal ∧ class32 0x007FFFFF#32 = .subnormal := by decide
theorem test_class32_normal : class32 0x00800000#32 = .normal ∧ class32 0x7F7FFFFF#32 = .normal := by decide
theorem test_class32_infinity : class32 0x7F800000#32 = .infinity false := by decide
theorem test_class32_nan :
    class32 0x7F800001#32 = .nan false ∧ class32 0x7FBFFFFF#32 = .nan false ∧ class32 0x7FC00000#32 = .nan true := by
  decide
theorem test_class64_edges :
    class64 0x8000000000000000#64 = .zero true ∧ class64 0x000FFFFFFFFFFFFF#64 = .subnormal ∧
    class64 0x0010000000000000#64 = .normal ∧ class64 0x7FEFFFFFFFFFFFFF#64 = .normal ∧
    class64 0xFFF0000000000000#64 = .infinity true ∧ class64 0x7FF0000000000001#64 = .nan false ∧
    class64 0xFFF8000000000000#64 = .nan true := by decide
/-- R82: the smallest subnormal is `2^(-126) × 1 / 2^23`. -/
theorem test_number32_smallest : number32 0x00000001#32 = some (.nonzero (1 / 2 ^ 149)) := by
  have hclass : class32 0x00000001#32 = .subnormal := by decide
  norm_num [number32, hclass, denote, sign32, mantissa32, signFactor]

/-! ### Witnesses: what the obligations assume can be met -/

theorem test_witness_InstructionsChangeOnlyPortsAndRecord :
    (∃ t, exec (.fp32ToUint32Bitcast 0#64) midRun = .next t) ∧ 0 < midRun.responses.length :=
  ⟨⟨_, rfl⟩, by decide⟩

theorem test_witness_EveryRequestAnswersBlockFunction : (0b11#2)[1] = true ∧ (0b00#2)[1] = false := by decide

theorem test_witness_BitsAndByteLanesKeepTheirPlaces :
    31 < (if (0b01#2)[1] then 64 else 32) ∧ 63 < (if (0b10#2)[1] then 64 else 32) ∧
    3 < (if (0b01#2)[1] then 8 else 4) ∧ 7 < (if (0b10#2)[1] then 8 else 4) := by decide

/-- One word under each row's mask. -/
theorem test_witness_DecodeFollowsTableMasks :
    0x0FFFFFFFFFFFFFFFF#66 &&& 0x30000000000000000#66 = 0x0#66 ∧
    0x10000000000000000#66 &&& 0x30000000000000000#66 = 0x10000000000000000#66 ∧
    0x2FFFFFFFFFFFFFFFF#66 &&& 0x30000000000000000#66 = 0x20000000000000000#66 ∧
    0x30000000000000000#66 &&& 0x30000000000000000#66 = 0x30000000000000000#66 := by decide

/-- A refused step, on both sides of the equivalence. -/
theorem test_witness_OnlyOpenChainsAreRefused :
    step (presenting ⟨0b11#2, .chain 0⟩) = .refused .openChain ∧
    (presenting ⟨0b11#2, .chain 0⟩).program[0]? = some ⟨0b11#2, .chain 0⟩ ∧
    (presenting ⟨0b11#2, .chain 0⟩).responses.length ≤ 0 := ⟨rfl, rfl, by decide⟩

theorem test_witness_UpperOperandHalfIgnoredAt32Bits :
    (0b00#2)[1] = false ∧ (0b01#2)[1] = false ∧
    low32 0xDEADBEEF3F800000#64 = low32 0x000000003F800000#64 := by decide

theorem test_witness_ResponseDependsOnRequestAlone :
    midRun.presentation = .request (serialise 0b01#2 0xBFF0000000000000#64) ∧
    (presenting ⟨0b01#2, .bits 0xBFF0000000000000#64⟩).presentation =
      .request (serialise 0b01#2 0xBFF0000000000000#64) := by decide

theorem test_witness_PairWordsAreByteLanes :
    3 < 4 ∧ byteLane (join 0x01234567#32 0x89ABCDEF#32) 3 = 0x89#8 ∧
    byteLane (join 0x01234567#32 0x89ABCDEF#32) 4 = 0x67#8 := by decide

theorem test_witness_Bitcasts32AreInverse :
    low32 0xFFFFFFFF7F800001#64 = low32 (blockFunction 0b00#2 0x000000007F800001#64) ∧
    low32 0xFFFFFFFF80000000#64 = low32 (blockFunction 0b01#2 0x0000000080000000#64) := by decide

/-- The premises of R87's two clauses about the machine's own responses, for one pair of operands. -/
theorem test_witness_Bitcasts32AreInverse_machine :
    (∃ t, exec (.fp32ToUint32Bitcast 0x000000007F800001#64) State.reset = .next t ∧
      low32 0xFFFFFFFF7F800001#64 = low32 t.r) ∧
    (∃ u, exec (.uint32ToFp32Bitcast 0xFFFFFFFF7F800001#64) midRun = .next u ∧
      low32 0x000000007F800001#64 = low32 u.r) :=
  ⟨⟨_, rfl, by decide⟩, ⟨_, rfl, by decide⟩⟩

theorem test_witness_PairInterfaceIsViewOfBus :
    high32 0x400921FB54442D18#64 = 0x400921FB#32 ∧ low32 0x400921FB54442D18#64 = 0x54442D18#32 := by decide

theorem test_witness_NansCarriedUnchangedAt32Bits :
    (0b00#2)[1] = false ∧ class32 (low32 0x000000007F800001#64) = .nan false ∧
    class32 (low32 0x00000000FFFFFFFF#64) = .nan true := by decide

theorem test_witness_ZerosAndSubnormalsCarriedAt32Bits :
    (0b01#2)[1] = false ∧ class32 (low32 0x0000000000000000#64) = .zero false ∧
    class32 (low32 0x0000000080000000#64) = .zero true ∧
    class32 (low32 0x00000000807FFFFF#64) = .subnormal := by decide

theorem test_witness_EveryClassCarriedUnchangedAt64Bits : (0b10#2)[1] = true ∧ (0b11#2)[1] = true := by decide

theorem test_witness_OnlyTooWideNumbersAreRejected :
    2 ^ 66 - 1 < 2 ^ 66 ∧ decodeNat (2 ^ 66) = .error .widerThanRequest := ⟨by decide, rfl⟩

theorem test_witness_StepRunsDecodedRequest :
    midRun.program[midRun.pc]? = some ⟨0b01#2, .chain 0⟩ ∧
    operandBits midRun.responses (.chain 0) = some 0xBFF0000000000000#64 := by decide

theorem test_witness_ChainedOperandIsWholeResponse :
    midRun.program[midRun.pc]? = some ⟨0b01#2, .chain 0⟩ ∧
    midRun.responses[0]? = some 0xBFF0000000000000#64 := by decide

theorem test_witness_StepAfterLastRequestChangesNothing : State.reset.program.length ≤ State.reset.pc := by decide

theorem test_witness_IndexAdvancesByOnePerRequest :
    (∃ t, step midRun = .next t) ∧ midRun.pc < midRun.program.length ∧
    (∃ t, step State.reset = .next t) ∧ State.reset.program.length ≤ State.reset.pc :=
  ⟨⟨_, rfl⟩, by decide, ⟨_, rfl⟩, by decide⟩

theorem test_witness_PlacedWordRunsNext : 3 ≠ midRun.pc ∧ 3 < midRun.program.length := by decide

/-- A good state in the middle of a run. -/
theorem test_witness_EveryStepKeepsRunContract : midRun.Inv ∧ ∃ t, step midRun = .next t :=
  ⟨⟨by decide, by decide, by decide, by decide, by decide⟩, ⟨_, rfl⟩⟩

theorem test_witness_LoadedLegalProgramMeetsRunContract :
    midRun.PortsAgree ∧ assemble ["doubleToBits 0xBFF0000000000000".toList, "bitsToFloat @0".toList] =
      some [⟨0b10#2, .bits 0xBFF0000000000000#64⟩, ⟨0b01#2, .chain 0⟩] := by decide

theorem test_witness_PendingRequestGetsDueResponse : midRun.Inv ∧ midRun.pc < midRun.program.length :=
  ⟨test_witness_EveryStepKeepsRunContract.1, by decide⟩

theorem test_witness_RunEndsWithEveryDueResponse : midRun.Inv := test_witness_EveryStepKeepsRunContract.1

theorem test_witness_SignBitNegatesNumber :
    number32 0x3F800000#32 = some (.nonzero 1) ∧ number32 0x00000000#32 = some (.zero false) ∧
    number64 0x3FF0000000000000#64 = some (.nonzero 1) ∧ number64 0x8000000000000000#64 = some (.zero true) := by
  refine ⟨?_, by decide, ?_, by decide⟩ <;>
    simp [number32, number64, class32, class64, classify, denote, sign32, sign64, exponent32, exponent64,
      mantissa32, mantissa64, signFactor]

end Sys2Proof.Tests
end

/-!
PROOFS. The state and its frame (10_state.md): every instruction is one `State.respond` with `Block(op, a)` of its
own request, and a step at a request is that instruction.
-/

namespace Sys2Proof.Machine

@[simp] theorem State.respond_block (op : OpSelect) (a v : Bus) (s : State) :
    (s.respond op a v).block = s.block := rfl

/-- `exec_responds` with the value named: the response is `Block(op, a)` (30_encoding.md R71), so no field of the
state enters it. -/
theorem exec_eq_respond (i : Instr) (s : State) :
    exec i s = .next (s.respond i.op i.operandBus (blockFunction i.op i.operandBus)) := by
  cases i <;> rfl

/-- A line whose operand has its bits is presented as its serialised request. -/
theorem presentation_of_operandBits {s : State} {l : ProgramLine} {a : Bus}
    (hl : s.program[s.pc]? = some l) (ha : operandBits s.responses l.operand = some a) :
    s.presentation = .request (serialise l.op a) := by
  simp [State.presentation, presentLine, hl, ha]

/-- At a request, the step is its decoded instruction. -/
theorem step_of_request {s : State} {w : RequestWord} (h : s.presentation = .request w) :
    step s = exec (decode w) s := by
  simp [step, h]

end Sys2Proof.Machine

namespace Sys2Proof.Proofs

open Sys2Proof.Machine

/-- Settles O5: the next state is a `State.respond`, whose fields are known, and it notes the response behind the
earlier ones. -/
theorem instructionsChangeOnlyPortsAndRecord : Obligations.InstructionsChangeOnlyPortsAndRecord := by
  intro i s t h
  rw [exec_eq_respond] at h
  cases h
  refine ⟨State.respond_block .., State.respond_program .., State.respond_op .., State.respond_a ..,
    State.respond_pc .., ?_, ?_, fun k hk => ?_⟩
  · simp
  · exact List.getElem?_concat_length
  · exact List.getElem?_append_left hk

/-- Settles O11: both steps answer the decoded request with the same `Block(op, a)`. -/
theorem responseDependsOnRequestAlone : Obligations.ResponseDependsOnRequestAlone := by
  intro w s s' hs hs'
  exact ⟨_, _, (step_of_request hs).trans (exec_eq_respond _ s),
    (step_of_request hs').trans (exec_eq_respond _ s'), rfl, rfl, rfl⟩

/-- Settles O25: the line is presented as `op ++ a`, and the step at a request is its decoded instruction. -/
theorem stepRunsDecodedRequest : Obligations.StepRunsDecodedRequest := by
  intro s l a hl ha
  exact step_of_request (presentation_of_operandBits hl ha)

end Sys2Proof.Proofs

/-!
PROOFS. Lanes and repetition (20_memory.md): `Block(op, a)` by its width, byte lanes bit by bit, and a run over lines
that are all the same request.
-/

namespace Sys2Proof.Machine

/-- `Block(op, a)` by width (30_encoding.md R71): `op[1]` says whether 64 or 32 bits of `a` are moved. -/
theorem blockFunction_eq_ite (op : OpSelect) (a : Bus) :
    blockFunction op a = if op[1] then a else zext64 (low32 a) := by
  revert op; exact forall_opSelect rfl rfl rfl rfl

/-- Each bit an operation moves stays in its place (20_memory.md R42). -/
theorem getLsbD_blockFunction {op : OpSelect} {i : Nat} (a : Bus) (hi : i < if op[1] then 64 else 32) :
    (blockFunction op a).getLsbD i = a.getLsbD i := by
  rw [blockFunction_eq_ite]
  split at hi
  · rw [if_pos ‹_›]
  · rw [if_neg ‹_›, getLsbD_zext64, getLsbD_low32, decide_eq_true hi, Bool.true_and]

/-- A request answers with one `State.respond` of its own `Block(op, a)`. -/
theorem exec_decodeRequest (op : OpSelect) (a : Bus) (s : State) :
    exec (decodeRequest op a) s = .next (s.respond op a (blockFunction op a)) := by
  simp [exec_eq_respond]

@[simp] theorem getLsbD_byteLane (v : BitVec 64) (k i : Nat) :
    (byteLane v k).getLsbD i = (decide (i < 8) && v.getLsbD (8 * k + i)) := by
  simp [byteLane]

/-- Values with the same bits `8k+7..8k` have the same byte lane `k`. -/
theorem byteLane_congr {v w : BitVec 64} {k : Nat}
    (h : ∀ i, i < 8 → v.getLsbD (8 * k + i) = w.getLsbD (8 * k + i)) : byteLane v k = byteLane w k := by
  apply BitVec.eq_of_getLsbD_eq
  intro i hi
  rw [getLsbD_byteLane, getLsbD_byteLane, h i hi]

/-- Byte lanes 3..0 of a join are the bytes of its low half (20_memory.md R43). -/
theorem byteLane_join_low (high low : Bits32) {k : Nat} (hk : k < 4) :
    byteLane (join high low) k = low.extractLsb' (8 * k) 8 := by
  apply BitVec.eq_of_getLsbD_eq
  intro i hi
  rw [getLsbD_byteLane, getLsbD_join, if_pos (by omega), BitVec.getLsbD_extractLsb']

/-- Byte lanes 7..4 of a join are the bytes of its high half (20_memory.md R43). -/
theorem byteLane_join_high (high low : Bits32) (k : Nat) :
    byteLane (join high low) (4 + k) = high.extractLsb' (8 * k) 8 := by
  apply BitVec.eq_of_getLsbD_eq
  intro i hi
  rw [getLsbD_byteLane, getLsbD_join, if_neg (by omega), BitVec.getLsbD_extractLsb',
    show 8 * (4 + k) + i - 32 = 8 * k + i by omega]

/-- A step at a line whose operand has its bits answers with `Block(op, a)`. -/
theorem step_of_line {s : State} {l : ProgramLine} {a : Bus}
    (hl : s.program[s.pc]? = some l) (ha : operandBits s.responses l.operand = some a) :
    step s = .next (s.respond l.op a (blockFunction l.op a)) := by
  rw [step_of_request (presentation_of_operandBits hl ha), decode_serialise, exec_decodeRequest]

/-- A run goes on from the state its first step leads to. -/
theorem run_succ_of_step {s t : State} (n : Nat) (h : step s = .next t) :
    Sys2Proof.core.run (n + 1) s = Sys2Proof.core.run n t := by
  have hcore : Sys2Proof.core.step s = .next t := h
  simp only [Host.Core.run, hcore]

/-- Over `n` equal lines from the index on, a run notes `n` equal responses behind those it had. -/
theorem run_of_equal_lines (n : Nat) (op : OpSelect) (a : Bus) (s : State)
    (hlines : ∀ k, k < n → s.program[s.pc + k]? = some { op := op, operand := .bits a }) :
    ∃ t, Sys2Proof.core.run n s = .next t ∧
      t.responses = s.responses ++ List.replicate n (blockFunction op a) ∧ t.block = s.block := by
  induction n generalizing s with
  | zero => exact ⟨s, rfl, by simp, rfl⟩
  | succ n ih =>
    have hstep : step s = .next (s.respond op a (blockFunction op a)) :=
      step_of_line (hlines 0 n.succ_pos) rfl
    obtain ⟨t, hrun, hresponses, hblock⟩ := ih (s.respond op a (blockFunction op a)) fun k hk => by
      simpa [Nat.add_assoc, Nat.add_comm 1 k] using hlines (k + 1) (Nat.succ_lt_succ hk)
    refine ⟨t, (run_succ_of_step n hstep).trans hrun, ?_, hblock⟩
    rw [hresponses, State.respond_responses, List.append_assoc, List.singleton_append, List.replicate_succ]

end Sys2Proof.Machine

namespace Sys2Proof.Proofs

open Sys2Proof.Machine

/-- Settles O9: the response is `Block(op, a)`, which keeps each bit of its width in place, and a byte lane within
that width is eight such bits. -/
theorem bitsAndByteLanesKeepTheirPlaces : Obligations.BitsAndByteLanesKeepTheirPlaces := by
  intro op a s
  refine ⟨_, exec_decodeRequest op a s, fun i hi => getLsbD_blockFunction a hi, fun k hk => ?_⟩
  refine byteLane_congr fun i hi => getLsbD_blockFunction a ?_
  split at hk
  · rw [if_pos ‹_›]; omega
  · rw [if_neg ‹_›]; omega

/-- Settles O10: bit `8k + i` of a join is a bit of its low half for `k < 4`, and bit `8(4 + k) + i` is bit `8k + i`
of its high half. -/
theorem pairWordsAreByteLanes : Obligations.PairWordsAreByteLanes :=
  fun high low k hk => ⟨byteLane_join_low high low hk, byteLane_join_high high low k⟩

/-- Settles O12: the loaded program has the same request at each of its `n` lines, and no response yet. -/
theorem repeatedRequestRepeatsResponse : Obligations.RepeatedRequestRepeatsResponse := by
  intro n op a s
  refine run_of_equal_lines n op a (s.load _) fun k hk => ?_
  simp [hk]

end Sys2Proof.Proofs

/-!
PROOFS. The encoding (30_encoding.md R60 to R66): decode and encode are inverse to one another, and the masks of
spec/opcode_table.json keep `op` and clear `a`.
-/

namespace Sys2Proof

/-- An instruction is the request of its own two fields. -/
@[simp] theorem decodeRequest_op_operandBus (i : Instr) : decodeRequest i.op i.operandBus = i := by
  cases i <;> rfl

/-- Every instruction survives encoding and decoding (30_encoding.md R61). -/
theorem decode_encode (i : Instr) : decode (encode i) = i := by
  rw [encode, decode_serialise, decodeRequest_op_operandBus]

/-- A request encodes to its two fields (30_encoding.md R60). -/
theorem encode_decodeRequest (op : OpSelect) (a : Bus) : encode (decodeRequest op a) = serialise op a := by
  rw [encode, decodeRequest_op, decodeRequest_operandBus]

/-- Every 66-bit word survives decoding and encoding (30_encoding.md R66). -/
theorem encode_decode (w : RequestWord) : encode (decode w) = w := by
  rw [decode, encode_decodeRequest, serialise_fields]

/-- Requests with the same operand differ in their code alone. -/
theorem serialise_left_inj {op op' : OpSelect} (a : Bus) : serialise op a = serialise op' a ↔ op = op' :=
  ⟨fun h => by simpa using congrArg RequestWord.opField h, fun h => by rw [h]⟩

/-- A request is decoded to a row exactly when it has the row's code (30_encoding.md R61). -/
theorem decodeRequest_left_inj {op op' : OpSelect} (a : Bus) :
    decodeRequest op a = decodeRequest op' a ↔ op = op' :=
  ⟨fun h => by simpa using congrArg Instr.op h, fun h => by rw [h]⟩

/-- `a` is the low 64 bits of a word (30_encoding.md R60). -/
theorem operandField_eq_setWidth (w : RequestWord) : RequestWord.operandField w = w.setWidth 64 :=
  (BitVec.setWidth_eq_extractLsb' (by omega)).symm

/-- The mask of every row of the table keeps bits 65..64 and clears the rest. -/
theorem and_tableMask (w : RequestWord) :
    w &&& 0x30000000000000000#66 = serialise (RequestWord.opField w) 0#64 := by
  have hmask : 0x30000000000000000#66 = serialise 0b11#2 0#64 := by decide
  have hop : RequestWord.opField w &&& 0b11#2 = RequestWord.opField w := BitVec.and_allOnes
  calc w &&& 0x30000000000000000#66
      = serialise (RequestWord.opField w) (RequestWord.operandField w) &&& serialise 0b11#2 0#64 := by
        rw [serialise_fields, hmask]
    _ = serialise (RequestWord.opField w &&& 0b11#2) (RequestWord.operandField w &&& 0#64) := BitVec.and_append
    _ = serialise (RequestWord.opField w) 0#64 := by rw [hop, BitVec.and_zero]

/-- A word matches the row of code `op` exactly when it decodes to that row's instruction. -/
theorem and_tableMask_eq_iff (op : OpSelect) (w : RequestWord) :
    w &&& 0x30000000000000000#66 = serialise op 0#64 ↔ decode w = decodeRequest op (w.setWidth 64) := by
  rw [and_tableMask, serialise_left_inj, ← operandField_eq_setWidth, decode, decodeRequest_left_inj]

end Sys2Proof

namespace Sys2Proof.Proofs

/-- Settles O21: an instruction is the request of its two fields, and a word is its two fields. -/
theorem decodeAndEncodeAgree : Obligations.DecodeAndEncodeAgree :=
  ⟨decode_encode, encode_decode⟩

/-- Settles O22: each row's match is its code over a zero operand. -/
theorem decodeFollowsTableMasks : Obligations.DecodeFollowsTableMasks := fun w =>
  ⟨and_tableMask_eq_iff 0b00#2 w, and_tableMask_eq_iff 0b01#2 w, and_tableMask_eq_iff 0b10#2 w,
    and_tableMask_eq_iff 0b11#2 w⟩

end Sys2Proof.Proofs

/-!
PROOFS. Operands and results by width (30_encoding.md R62 to R64, R71): what `op[1]` makes of `Block(op, a)`.
-/

namespace Sys2Proof.Machine

/-- A 64-bit operation answers with all of `a` (30_encoding.md R63). -/
theorem blockFunction_of_wide {op : OpSelect} (a : Bus) (h : op[1] = true) : blockFunction op a = a := by
  rw [blockFunction_eq_ite, if_pos h]

/-- A 32-bit operation answers with `a[31:0]`, zero-extended (30_encoding.md R62, R64). -/
theorem blockFunction_of_narrow {op : OpSelect} (a : Bus) (h : op[1] = false) :
    blockFunction op a = zext64 (low32 a) := by
  rw [blockFunction_eq_ite, if_neg (by simp [h])]

end Sys2Proof.Machine

namespace Sys2Proof.Proofs

open Sys2Proof.Machine

/-- Settles O6: every request answers with `Block(op, a)`, whose arms are its definition, and which is known at each
width. -/
theorem everyRequestAnswersBlockFunction : Obligations.EveryRequestAnswersBlockFunction := by
  intro op a s
  exact ⟨_, exec_decodeRequest op a s, rfl, rfl, rfl, rfl, rfl, blockFunction_of_wide a, blockFunction_of_narrow a⟩

/-- Settles O7: at 32 bits `Block(op, a)` is a function of the low half of `a`. -/
theorem upperOperandHalfIgnoredAt32Bits : Obligations.UpperOperandHalfIgnoredAt32Bits := by
  intro op a b s hop hlow
  have hr : blockFunction op a = blockFunction op b := by
    rw [blockFunction_of_narrow a hop, blockFunction_of_narrow b hop, hlow]
  refine ⟨_, _, exec_decodeRequest op a s, exec_decodeRequest op b s, ?_, hr, ?_⟩
  · rw [State.respond_r, blockFunction_of_narrow a hop, low32_zext64]
  · rw [State.respond_responses, State.respond_responses, hr]

/-- Settles O8: the response is the operation's arm of `Block(op, a)`, and zero-extension keeps the low half and
clears the high one. -/
theorem resultBusAssembledByWidth : Obligations.ResultBusAssembledByWidth := by
  intro a s
  exact ⟨⟨_, exec_eq_respond _ s, rfl, low32_zext64 _, high32_zext64 _⟩,
    ⟨_, exec_eq_respond _ s, rfl, low32_zext64 _, high32_zext64 _⟩,
    ⟨_, exec_eq_respond _ s, rfl, rfl⟩, ⟨_, exec_eq_respond _ s, rfl, rfl⟩⟩

end Sys2Proof.Proofs

/-!
PROOFS. Text (30_encoding.md R68 to R70): a line is read name first, then its operand at the operation's width.
-/

namespace Sys2Proof.Machine

/-- A join is the concatenation of its halves (41_fp64_bitcast.md R116). -/
theorem join_eq_append (high low : Bits32) : join high low = high ++ low := by
  apply BitVec.eq_of_getLsbD_eq
  intro i _
  rw [getLsbD_join, BitVec.getLsbD_append]

theorem readName_mnemonic (op : OpSelect) : readName (mnemonic op) = some op := by
  revert op; decide

theorem readName_sourceName (op : OpSelect) : readName (sourceName op) = some op := by
  revert op; decide

theorem space_notMem_mnemonic (op : OpSelect) : ' ' ∉ mnemonic op := by
  revert op; decide

theorem space_notMem_sourceName (op : OpSelect) : ' ' ∉ sourceName op := by
  revert op; decide

/-- A line is cut at its first space; what stands before it names the operation. -/
theorem readLine_of_name {name : Text} {op : OpSelect} (operand : Text)
    (hspace : ' ' ∉ name) (hname : readName name = some op) :
    readLine (name ++ ' ' :: operand) = (readOperand op operand).map (ProgramLine.mk op) := by
  have hkeep : ∀ c ∈ name, (c != ' ') = true := fun c hc => bne_iff_ne.mpr fun h => hspace (h ▸ hc)
  simp [readLine, List.takeWhile_append_of_pos hkeep, List.dropWhile_append_of_pos hkeep, hname]

theorem readLine_mnemonic (op : OpSelect) (operand : Text) :
    readLine (mnemonic op ++ ' ' :: operand) = (readOperand op operand).map (ProgramLine.mk op) :=
  readLine_of_name operand (space_notMem_mnemonic op) (readName_mnemonic op)

theorem readLine_sourceName (op : OpSelect) (operand : Text) :
    readLine (sourceName op ++ ' ' :: operand) = (readOperand op operand).map (ProgramLine.mk op) :=
  readLine_of_name operand (space_notMem_sourceName op) (readName_sourceName op)

/-- An operand that begins with `0` is a literal. -/
theorem readOperand_zero_cons (op : OpSelect) (t : Text) :
    readOperand op ('0' :: t) = (readLiteral op ('0' :: t)).map .bits := rfl

/-- At 64 bits a literal has 16 digits or is a pair. -/
theorem readLiteral_of_wide {op : OpSelect} (t : Text) (h : op[1] = true) :
    readLiteral op t = ((readHex 16 t).map (BitVec.ofNat 64)).or (readPair t) := by
  rw [readLiteral, if_pos h]
  cases readHex 16 t <;> rfl

/-- At 32 bits a literal has 8 digits, and `a[63:32]` is 0. -/
theorem readLiteral_of_narrow {op : OpSelect} (t : Text) (h : op[1] = false) :
    readLiteral op t = (readHex 8 t).map fun n => zext64 (BitVec.ofNat 32 n) := by
  rw [readLiteral, if_neg (by simp [h])]
  cases readHex 8 t <;> rfl

/-- `n` digits hold a value of `4n` bits. -/
theorem readHex_hexDigits_toNat {n w : Nat} (v : BitVec w) (hw : 16 ^ n = 2 ^ w) :
    readHex n ('0' :: 'x' :: hexDigits n v.toNat) = some v.toNat := by
  rw [readHex_hexDigits, hw, Nat.mod_eq_of_lt v.isLt]

/-- A pair of literals is read half by half; the first literal is ten characters long. -/
theorem readPair_of_readHex {t u : Text} {high low : Bits32} (hlength : t.length = 10)
    (hhigh : readHex 8 t = some high.toNat) (hlow : readHex 8 u = some low.toNat) :
    readPair (t ++ ',' :: ' ' :: u) = some (high ++ low) := by
  have htake : (t ++ ',' :: ' ' :: u).take 10 = t := List.take_left' hlength
  have hdrop : (t ++ ',' :: ' ' :: u).drop 10 = ',' :: ' ' :: u := List.drop_left' hlength
  have hdrop2 : (t ++ ',' :: ' ' :: u).drop 12 = u := by
    rw [show 12 = 10 + 2 from rfl, ← List.drop_drop, hdrop]; rfl
  simp [readPair, htake, hdrop, hdrop2, hhigh, hlow, join_eq_append]

/-- The pair form at 64 bits. -/
theorem readPair_hexDigits (high low : Bits32) :
    readPair ('0' :: 'x' :: (hexDigits 8 high.toNat ++ ',' :: ' ' :: '0' :: 'x' :: hexDigits 8 low.toNat)) =
      some (high ++ low) :=
  readPair_of_readHex (t := '0' :: 'x' :: hexDigits 8 high.toNat) (by simp)
    (readHex_hexDigits_toNat high (by norm_num)) (readHex_hexDigits_toNat low (by norm_num))

/-- A pair has 20 characters after its first `0x`, so it is no single literal of another length. -/
theorem readHex_pair {n : Nat} (high low : Nat) (hn : n ≠ 20) :
    readHex n ('0' :: 'x' :: (hexDigits 8 high ++ ',' :: ' ' :: '0' :: 'x' :: hexDigits 8 low)) = none :=
  if_neg (by simpa using hn.symm)

end Sys2Proof.Machine

namespace Sys2Proof.Proofs

open Sys2Proof.Machine

/-- Settles O37: the printed mnemonic is found again, and the printed digits are those of the operation's width. -/
theorem assemblerReadsDisassembly : Obligations.AssemblerReadsDisassembly := by
  intro op a
  rw [disassemble, readLine_mnemonic, readOperand_zero_cons]
  cases hop : op[1] with
  | true => simp [readLiteral_of_wide _ hop, readHex_hexDigits_toNat a (n := 16) (by norm_num)]
  | false => simp [readLiteral_of_narrow _ hop, readHex_hexDigits_toNat (low32 a) (n := 8) (by norm_num)]

/-- Settles O38: both names are found under the same code, and the operand is read by the code alone. -/
theorem sourceNamesSpellSameRequests : Obligations.SourceNamesSpellSameRequests := fun op operand =>
  (readLine_sourceName op operand).trans (readLine_mnemonic op operand).symm

/-- Settles O39: a pair is too long for a single literal, so a 64-bit operation reads it as a pair and a 32-bit one
reads nothing. -/
theorem pairFormJoinsHalves : Obligations.PairFormJoinsHalves := by
  intro op high low
  rw [readLine_mnemonic, readOperand_zero_cons]
  cases hop : op[1] with
  | true => simp [readLiteral_of_wide _ hop, readHex_pair (n := 16) _ _ (by decide), readPair_hexDigits]
  | false => simp [readLiteral_of_narrow _ hop, readHex_pair (n := 8) _ _ (by decide)]

end Sys2Proof.Proofs

/-!
PROOFS. The 32-bit bitcasts (40_fp32_bitcast.md): either operation carries `a[31:0]` to `r[31:0]`, and the laws of
R85 to R89 are readings of that.
-/

namespace Sys2Proof.Machine

/-- Reading a binary32 at its integer type and back (40_fp32_bitcast.md R87). -/
@[simp] theorem uint32ToFp32_fp32ToUint32 (v : Float32Value) : uint32ToFp32 (fp32ToUint32 v) = v := rfl

/-- Reading an integer at its binary32 type and back (40_fp32_bitcast.md R87). -/
@[simp] theorem fp32ToUint32_uint32ToFp32 (b : Bits32) : fp32ToUint32 (uint32ToFp32 b) = b := rfl

/-- A zero-extended low half has the bits of `a` below 32 and 0 above (40_fp32_bitcast.md R85, R86). -/
theorem getLsbD_zext64_low32 (a : Bus) (i : Nat) :
    (zext64 (low32 a)).getLsbD i = (decide (i < 32) && a.getLsbD i) := by
  rw [getLsbD_zext64, getLsbD_low32]

/-- A 32-bit operation carries `a[31:0]` to `r[31:0]`. -/
theorem low32_blockFunction_of_narrow {op : OpSelect} (a : Bus) (h : op[1] = false) :
    low32 (blockFunction op a) = low32 a := by
  rw [blockFunction_of_narrow a h, low32_zext64]

/-- Of two 32-bit operations, the second answers the first's operand when it is given the first's response
(40_fp32_bitcast.md R87). -/
theorem low32_blockFunction_of_response {op op' : OpSelect} {a a' : Bus} (h : op[1] = false) (h' : op'[1] = false)
    (hchain : low32 a' = low32 (blockFunction op a)) : low32 (blockFunction op' a') = low32 a := by
  rw [low32_blockFunction_of_narrow a' h', hchain, low32_blockFunction_of_narrow a h]

/-- A 32-bit request answers, and its response has the operand's 32 bits (40_fp32_bitcast.md R85, R86). -/
theorem exec_carries_low32 {op : OpSelect} (a : Bus) (s : State) (h : op[1] = false) :
    ∃ t, exec (decodeRequest op a) s = .next t ∧ low32 t.r = low32 a :=
  ⟨_, exec_decodeRequest op a s, low32_blockFunction_of_narrow a h⟩

/-- Only an encoding with exponent and mantissa 0 is a zero, and its sign is the sign bit (40_fp32_bitcast.md R81,
41_fp64_bitcast.md R111). -/
theorem classify_eq_zero_iff {eMax e m : Nat} {s quiet negative : Bool} :
    classify eMax s e m quiet = .zero negative ↔ e = 0 ∧ m = 0 ∧ s = negative := by
  unfold classify
  by_cases he : e = 0
  · by_cases hm : m = 0 <;> simp [he, hm]
  · by_cases hmax : e = eMax
    · by_cases hm : m = 0 <;> simp [← hmax, he, hm]
    · simp [he, hmax]

/-- A single bit is a slice of length 1. -/
theorem ofBool_getElem_eq_extractLsb' {w i : Nat} (v : BitVec w) (hi : i < w) :
    BitVec.ofBool v[i] = v.extractLsb' i 1 := by
  apply BitVec.eq_of_getLsbD_eq
  intro j hj
  obtain rfl : j = 0 := by omega
  simp [BitVec.getLsbD_eq_getElem hi]

/-- A binary32 encoding is its sign, exponent and mantissa, in that order (40_fp32_bitcast.md R80). -/
theorem eq_append_fields32 (v : Float32Value) :
    v = (BitVec.ofBool (sign32 v) ++ exponent32 v ++ mantissa32 v : BitVec 32) := by
  have hsign : BitVec.ofBool (sign32 v) = v.extractLsb' 31 1 := ofBool_getElem_eq_extractLsb' v (by omega)
  have htop : v.extractLsb' 31 1 ++ v.extractLsb' 23 8 = v.extractLsb' 23 9 :=
    BitVec.extractLsb'_append_extractLsb'_eq_extractLsb' rfl
  symm
  calc (BitVec.ofBool (sign32 v) ++ exponent32 v ++ mantissa32 v : BitVec 32)
      = v.extractLsb' 31 1 ++ v.extractLsb' 23 8 ++ v.extractLsb' 0 23 := by rw [hsign, exponent32, mantissa32]
    _ = v.extractLsb' 23 9 ++ v.extractLsb' 0 23 := by rw [htop]
    _ = v := BitVec.extractLsb'_append_extractLsb'

/-- The binary32 zeros are two, one for each sign (40_fp32_bitcast.md R81). -/
theorem eq_of_class32_eq_zero {v : Float32Value} {negative : Bool} (h : class32 v = .zero negative) :
    v = if negative then 0x80000000#32 else 0#32 := by
  obtain ⟨he, hm, hs⟩ := classify_eq_zero_iff.mp h
  have he' : exponent32 v = 0#8 := BitVec.eq_of_toNat_eq he
  have hm' : mantissa32 v = 0#23 := BitVec.eq_of_toNat_eq hm
  rw [eq_append_fields32 v, he', hm', hs]
  cases negative <;> rfl

end Sys2Proof.Machine

namespace Sys2Proof.Proofs

open Sys2Proof.Machine

/-- Settles O13: at the ports each operation carries the low half of its operand, so the second gives back what the
first was given. -/
theorem bitcasts32AreInverse : Obligations.Bitcasts32AreInverse :=
  ⟨uint32ToFp32_fp32ToUint32, fp32ToUint32_uint32ToFp32,
    fun _ _ => low32_blockFunction_of_response rfl rfl,
    fun _ _ => low32_blockFunction_of_response rfl rfl,
    fun a a' s s' => ⟨_, _, exec_decodeRequest 0b00#2 a s, exec_decodeRequest 0b01#2 a' s',
      low32_blockFunction_of_response rfl rfl, low32_blockFunction_of_response rfl rfl⟩⟩

/-- Settles O18: kind, sign and mantissa are read from the 32 bits that are carried. -/
theorem nansCarriedUnchangedAt32Bits : Obligations.NansCarriedUnchangedAt32Bits := by
  intro op a s quiet hop hnan
  obtain ⟨t, ht, hr⟩ := exec_carries_low32 a s hop
  rw [← hr] at hnan
  exact ⟨t, ht, hnan, congrArg sign32 hr, congrArg mantissa32 hr, hr⟩

/-- Settles O19: class is read from the 32 bits that are carried, and a zero's bits are known from its sign. -/
theorem zerosAndSubnormalsCarriedAt32Bits : Obligations.ZerosAndSubnormalsCarriedAt32Bits := by
  intro op a s hop
  obtain ⟨t, ht, hr⟩ := exec_carries_low32 a s hop
  rw [← hr]
  exact ⟨t, ht, fun negative hzero => ⟨hzero, eq_of_class32_eq_zero hzero⟩, fun hsub => ⟨hsub, rfl⟩⟩

/-- Settles O1: the word is the request of code `00`, which answers with its low half zero-extended. -/
theorem fp32ToUint32AnswersOperandBits : Obligations.Fp32ToUint32AnswersOperandBits := fun a s =>
  ⟨decode_serialise 0b00#2 a, _, exec_decodeRequest 0b00#2 a s, getLsbD_zext64_low32 a, rfl, rfl⟩

/-- Settles O2: the word is the request of code `01`, which answers with its low half zero-extended. -/
theorem uint32ToFp32AnswersOperandBits : Obligations.Uint32ToFp32AnswersOperandBits := fun a s =>
  ⟨decode_serialise 0b01#2 a, _, exec_decodeRequest 0b01#2 a s, getLsbD_zext64_low32 a, rfl, rfl⟩

end Sys2Proof.Proofs

/-!
PROOFS. The 64-bit bitcasts (41_fp64_bitcast.md): a pattern is the join of its halves, either operation carries all of
`a` to `r`, and the laws of R116 to R122 are readings of the two.
-/

namespace Sys2Proof.Machine

/-- The high half of a join (41_fp64_bitcast.md R117). -/
@[simp] theorem high32_join (high low : Bits32) : high32 (join high low) = high := by
  apply BitVec.eq_of_getLsbD_eq
  intro i hi
  rw [getLsbD_high32, getLsbD_join, if_neg (by omega), Nat.add_sub_cancel_left, decide_eq_true hi, Bool.true_and]

/-- The low half of a join (41_fp64_bitcast.md R117). -/
@[simp] theorem low32_join (high low : Bits32) : low32 (join high low) = low := by
  apply BitVec.eq_of_getLsbD_eq
  intro i hi
  rw [getLsbD_low32, getLsbD_join, if_pos hi, decide_eq_true hi, Bool.true_and]

/-- A pattern is the join of its halves (41_fp64_bitcast.md R117). -/
@[simp] theorem join_high32_low32 (v : Bits64) : join (high32 v) (low32 v) = v := by
  rw [join_eq_append, high32, low32, BitVec.extractLsb'_append_extractLsb']

@[simp] theorem split_high (v : Bits64) : (split v).high = high32 v := rfl

@[simp] theorem split_low (v : Bits64) : (split v).low = low32 v := rfl

/-- Splitting a join gives the pair back (41_fp64_bitcast.md R117). -/
@[simp] theorem split_join (high low : Bits32) : split (join high low) = { high := high, low := low } := by
  rw [split, high32_join, low32_join]

/-- The shifted high half and the extended low half share no set bit (41_fp64_bitcast.md R116). -/
theorem zext64_shiftLeft_and_zext64 (high low : Bits32) : (zext64 high <<< 32) &&& zext64 low = 0#64 := by
  apply BitVec.eq_of_getLsbD_eq
  intro i _
  rw [BitVec.getLsbD_and, BitVec.getLsbD_shiftLeft, getLsbD_zext64 low, BitVec.getLsbD_zero]
  by_cases h : i < 32
  · simp [h]
  · rw [BitVec.getLsbD_of_ge low i (by omega), Bool.and_false]

/-- Nothing carries in a join, so its OR is a sum (41_fp64_bitcast.md R116). -/
theorem join_eq_add (high low : Bits32) : join high low = (zext64 high <<< 32) + zext64 low :=
  (BitVec.add_eq_or_of_and_eq_zero _ _ (zext64_shiftLeft_and_zext64 high low)).symm

/-- Nothing wraps in a join (41_fp64_bitcast.md R116). -/
theorem toNat_join (high low : Bits32) : (join high low).toNat = high.toNat * 2 ^ 32 + low.toNat := by
  rw [join_eq_append, BitVec.toNat_append, ← Nat.shiftLeft_add_eq_or_of_lt low.isLt, Nat.shiftLeft_eq]

/-- Reading a binary64 at its integer type and back (41_fp64_bitcast.md R120). -/
@[simp] theorem uint64ToFp64_fp64ToUint64 (v : Float64Value) : uint64ToFp64 (fp64ToUint64 v) = v := rfl

/-- Reading an integer at its binary64 type and back (41_fp64_bitcast.md R120). -/
@[simp] theorem fp64ToUint64_uint64ToFp64 (u : Bits64) : fp64ToUint64 (uint64ToFp64 u) = u := rfl

/-- The pair form read back at binary64 (41_fp64_bitcast.md R120). -/
theorem bitsToDouble_doubleToBits (v : Float64Value) :
    bitsToDouble (doubleToBits v).high (doubleToBits v).low = v := by
  rw [bitsToDouble, doubleToBits, split_high, split_low, join_high32_low32, uint64ToFp64_fp64ToUint64]

/-- A pair read at binary64 gives the pair back (41_fp64_bitcast.md R120). -/
theorem doubleToBits_bitsToDouble (high low : Bits32) :
    doubleToBits (bitsToDouble high low) = { high := high, low := low } := by
  rw [doubleToBits, bitsToDouble, fp64ToUint64_uint64ToFp64, split_join]

/-- A 64-bit request answers, and its response is its operand (41_fp64_bitcast.md R118, R119). -/
theorem exec_carries_operand {op : OpSelect} (a : Bus) (s : State) (h : op[1] = true) :
    ∃ t, exec (decodeRequest op a) s = .next t ∧ t.r = a :=
  ⟨_, exec_decodeRequest op a s, blockFunction_of_wide a h⟩

/-- Of two 64-bit requests, in any two states, the second answers the first's operand when it is given the first's
response (41_fp64_bitcast.md R120). -/
theorem exec_carries_response {op op' : OpSelect} (a : Bus) (s s' : State) (h : op[1] = true) (h' : op'[1] = true) :
    ∃ t u, exec (decodeRequest op a) s = .next t ∧ exec (decodeRequest op' t.r) s' = .next u ∧ u.r = a := by
  obtain ⟨t, ht, htr⟩ := exec_carries_operand a s h
  obtain ⟨u, hu, hur⟩ := exec_carries_operand t.r s' h'
  exact ⟨t, u, ht, hu, hur.trans htr⟩

end Sys2Proof.Machine

namespace Sys2Proof.Proofs

open Sys2Proof.Machine

/-- Settles O14: at the ports each operation carries all of its operand, so the second gives back what the first was
given; the pair form is its split and join. -/
theorem bitcasts64AreInverse : Obligations.Bitcasts64AreInverse := by
  refine ⟨uint64ToFp64_fp64ToUint64, bitsToDouble_doubleToBits, split_join, doubleToBits_bitsToDouble,
    fun a s s' => exec_carries_response (op := 0b10#2) (op' := 0b11#2) a s s' rfl rfl, fun h l s s' => ?_⟩
  obtain ⟨t, u, ht, hu, hur⟩ :=
    exec_carries_response (op := 0b11#2) (op' := 0b10#2) (join h l) s s' rfl rfl
  exact ⟨t, u, ht, hu, by rw [hur, split_join]⟩

/-- Settles O15: the halves of a join share no set bit, so OR, sum and concatenation are one. -/
theorem joinIsConcatenation : Obligations.JoinIsConcatenation := fun h l =>
  ⟨rfl, join_eq_append h l, rfl, rfl, zext64_shiftLeft_and_zext64 h l, join_eq_add h l, toNat_join h l⟩

/-- Settles O16: a half is 32 consecutive bits, and a pattern is the join of its halves. -/
theorem splitAndJoinAreInverse : Obligations.SplitAndJoinAreInverse :=
  ⟨fun v i => ⟨getLsbD_high32 v i, getLsbD_low32 v i⟩, split_join, join_high32_low32⟩

/-- Settles O3: the word is the request of code `10`, which answers with all of `a`, the join of its halves. -/
theorem fp64ToUint64AnswersOperandBits : Obligations.Fp64ToUint64AnswersOperandBits := fun a s =>
  ⟨decode_serialise 0b10#2 a, _, exec_decodeRequest 0b10#2 a s, fun _ => rfl, rfl, rfl, join_high32_low32 a, rfl⟩

/-- Settles O4: the word is the request of code `11`, which answers with all of `a`, the join of its halves. -/
theorem uint64ToFp64AnswersOperandBits : Obligations.Uint64ToFp64AnswersOperandBits := fun a s =>
  have hjoin : a = join (high32 a) (low32 a) := (join_high32_low32 a).symm
  ⟨decode_serialise 0b11#2 a, hjoin, _, exec_decodeRequest 0b11#2 a s, fun _ => rfl, hjoin, rfl⟩

/-- Settles O17: the response is the operand, whose halves are the pair. -/
theorem pairInterfaceIsViewOfBus : Obligations.PairInterfaceIsViewOfBus := by
  rintro a _ _ s rfl rfl
  obtain ⟨t, ht, htr⟩ := exec_carries_operand (op := 0b11#2) a s rfl
  obtain ⟨u, hu, hur⟩ := exec_carries_operand (op := 0b10#2) a s rfl
  exact ⟨⟨t, ht, htr.trans (bitsToDouble_doubleToBits a).symm⟩,
    ⟨u, hu, congrArg high32 hur, congrArg low32 hur, congrArg high32 hur, congrArg low32 hur⟩⟩

/-- Settles O20: class, sign, exponent and mantissa are read from the 64 bits that are carried. -/
theorem everyClassCarriedUnchangedAt64Bits : Obligations.EveryClassCarriedUnchangedAt64Bits := by
  intro op a s hop
  obtain ⟨t, ht, hr⟩ := exec_carries_operand a s hop
  exact ⟨t, ht, congrArg class64 hr, congrArg sign64 hr, congrArg exponent64 hr, congrArg mantissa64 hr, hr⟩

end Sys2Proof.Proofs

/-!
PROOFS. The host's sequence (10_state.md R22, 70_reset_and_hazards.md R167): a step answers the line at the index, stays
where it is past the last line, or is refused at an open chain; the first two keep the invariant, and so a run from a
good state ends with every response due.
-/

namespace Sys2Proof.Machine

/-- Past the last line nothing is presented. -/
theorem presentation_of_length_le {s : State} (h : s.program.length ≤ s.pc) : s.presentation = .noRequest := by
  rw [State.presentation, List.getElem?_eq_none h]

/-- Past the last line a step changes nothing (log 3). -/
theorem step_of_length_le {s : State} (h : s.program.length ≤ s.pc) : step s = .next s := by
  rw [step, presentation_of_length_le h, State.afterLastRequest_eq]

/-- `step_next_cases` with the next state named: a step ended past the last line, or answered its line. -/
theorem step_next_cases_respond {s t : State} (h : step s = .next t) :
    (s.program.length ≤ s.pc ∧ t = s) ∨
    (∃ l a, s.program[s.pc]? = some l ∧ operandBits s.responses l.operand = some a ∧
      t = s.respond l.op a (blockFunction l.op a)) := by
  rcases step_next_cases h with ⟨hl, rfl⟩ | ⟨l, a, hl, ha, hexec⟩
  · exact .inl ⟨List.getElem?_eq_none_iff.mp hl, rfl⟩
  · rw [exec_decodeRequest] at hexec
    cases hexec
    exact .inr ⟨l, a, hl, ha, rfl⟩

/-- Only a chained operand can lack its bits, and only while its request has no response (30_encoding.md R68). -/
theorem operandBits_eq_none_iff {responses : List Bus} {o : Operand} :
    operandBits responses o = none ↔ ∃ k, o = .chain k ∧ responses.length ≤ k := by
  cases o <;> simp [operandBits]

/-- An open chain is presented exactly at a line whose operand lacks its bits. -/
theorem presentation_eq_openChain_iff {s : State} :
    s.presentation = .openChain ↔ ∃ l, s.program[s.pc]? = some l ∧ operandBits s.responses l.operand = none := by
  rcases presentation_cases s with ⟨hl, hp⟩ | ⟨l, a, hl, ha, hp⟩ | ⟨l, hl, ha, hp⟩ <;> simp [*]

/-- A step is refused exactly at an open chain, by that name (log 4). -/
theorem step_eq_refused_iff {s : State} {ρ : Refusal} :
    step s = .refused ρ ↔ ρ = .openChain ∧ s.presentation = .openChain := by
  cases hp : s.presentation with
  | request w => simp [step_of_request hp, exec_ne_refused]
  | noRequest => simp [step, hp]
  | openChain => simp [step, hp, eq_comm]

/-- A placed word is what is presented next (30_encoding.md R60, logs 5 and 6). -/
theorem presentation_withFetchWord (s : State) (nbits : Nat) (w : RequestWord) :
    (s.withFetchWord nbits w.toNat).presentation = .request w := by
  have hline : (s.withFetchWord nbits w.toNat).program[s.pc]? = some (ProgramLine.ofWord w) := by
    rw [State.withFetchWord_program, BitVec.ofNat_toNat, BitVec.setWidth_eq, placeLine_getElem?_self]
  rw [presentation_of_operandBits hline rfl, ProgramLine.ofWord, serialise_fields]

/-- A due response, said once: line `k` exists, its operand has its bits, and the response is `Block` of the two. -/
theorem State.dueResponse_eq_some_iff {s : State} {k : Nat} {v : Bus} :
    s.dueResponse k = some v ↔
      ∃ l a, s.program[k]? = some l ∧ operandBits s.responses l.operand = some a ∧ blockFunction l.op a = v := by
  unfold State.dueResponse
  cases s.program[k]? <;> simp

/-- A response once due stays due, because an operand keeps its bits when one more response is noted. -/
theorem State.dueResponse_respond {s : State} {k : Nat} {v : Bus} (op : OpSelect) (a w : Bus)
    (h : s.dueResponse k = some v) : (s.respond op a w).dueResponse k = some v := by
  obtain ⟨l, b, hl, hb, hv⟩ := State.dueResponse_eq_some_iff.mp h
  exact State.dueResponse_eq_some_iff.mpr ⟨l, b, hl, operandBits_append [w] hb, hv⟩

/-- In a good state the line at the index has its bits: a chain names an earlier line, and every earlier line is
answered. -/
theorem State.Inv.exists_operandBits {s : State} (h : s.Inv) {l : ProgramLine} (hl : s.program[s.pc]? = some l) :
    ∃ a, operandBits s.responses l.operand = some a := by
  have hlegal : l.operand.legalAt s.pc = true := by simpa using legalAt_of_legalFrom h.legal hl
  exact operandBits_of_legal hlegal h.counted.le

/-- Answering the line at the index keeps the invariant: the new response is the one due to its line, and the earlier
ones stay due to theirs. -/
theorem State.Inv.respond {s : State} (h : s.Inv) {l : ProgramLine} {a : Bus} (hl : s.program[s.pc]? = some l)
    (ha : operandBits s.responses l.operand = some a) : (s.respond l.op a (blockFunction l.op a)).Inv where
  ports := rfl
  legal := h.legal
  counted := by simp [h.counted]
  bounded := (List.getElem?_eq_some_iff.mp hl).1
  answered k hk := by
    rw [State.respond_responses, List.length_append, List.length_singleton] at hk
    rw [State.respond_responses]
    rcases Nat.lt_succ_iff_lt_or_eq.mp hk with hlt | rfl
    · have hdue : s.dueResponse k = some s.responses[k] := by rw [← h.answered k hlt, List.getElem?_eq_getElem hlt]
      rw [List.getElem?_append_left hlt, State.dueResponse_respond _ _ _ hdue, List.getElem?_eq_getElem hlt]
    · have hdue : s.dueResponse s.responses.length = some (blockFunction l.op a) :=
        State.dueResponse_eq_some_iff.mpr ⟨l, a, h.counted ▸ hl, ha, rfl⟩
      rw [List.getElem?_concat_length, State.dueResponse_respond _ _ _ hdue]

/-- While a line is left, a good state's step answers it, and the next state is good. -/
theorem State.Inv.exists_step {s : State} (h : s.Inv) (hpc : s.pc < s.program.length) :
    ∃ l a, s.program[s.pc]? = some l ∧ operandBits s.responses l.operand = some a ∧
      step s = .next (s.respond l.op a (blockFunction l.op a)) := by
  have hl : s.program[s.pc]? = some s.program[s.pc] := List.getElem?_eq_getElem hpc
  obtain ⟨a, ha⟩ := h.exists_operandBits hl
  exact ⟨_, a, hl, ha, step_of_line hl ha⟩

/-- From a good state with `n` lines left, `n` steps lead to a good state at the end of the same program, which keeps
the responses it had (70_reset_and_hazards.md R167). -/
theorem State.Inv.exists_run {n : Nat} {s : State} (h : s.Inv) (hn : s.pc + n = s.program.length) :
    ∃ t, Sys2Proof.core.run n s = .next t ∧ t.Inv ∧ t.program = s.program ∧ t.pc = s.program.length ∧
      s.responses <+: t.responses := by
  induction n generalizing s with
  | zero => exact ⟨s, rfl, h, rfl, hn, [], List.append_nil _⟩
  | succ n ih =>
    obtain ⟨l, a, hl, ha, hstep⟩ := h.exists_step (by omega)
    have hleft : s.pc + 1 + n = s.program.length := by omega
    obtain ⟨t, hrun, hinv, hprogram, hpc, hkept⟩ := ih (h.respond hl ha) hleft
    have hnoted : s.responses <+: (s.respond l.op a (blockFunction l.op a)).responses := ⟨_, rfl⟩
    exact ⟨t, (run_succ_of_step n hstep).trans hrun, hinv, hprogram, hpc, hnoted.trans hkept⟩

/-- In a good state each noted response is the one due to its line. -/
theorem State.Inv.exists_response {s : State} (h : s.Inv) {k : Nat} (hk : k < s.responses.length) :
    ∃ v, s.responses[k]? = some v ∧ s.dueResponse k = some v :=
  have hv : s.responses[k]? = some s.responses[k] := List.getElem?_eq_getElem hk
  ⟨_, hv, (h.answered k hk).symm.trans hv⟩

/-- The assembler gives out legal programs only (30_encoding.md R68). -/
theorem programWellFormed_of_assemble {ts : List Text} {p : List ProgramLine} (h : assemble ts = some p) :
    programWellFormed p = true := by
  unfold assemble at h
  split at h
  · split at h
    · cases h; assumption
    · cases h
  · cases h

/-- A legal program loaded where the ports agree makes a good state (log 5). -/
theorem State.inv_load {s : State} {p : List ProgramLine} (hports : s.PortsAgree) (hp : programWellFormed p = true) :
    (s.load p).Inv where
  ports := hports
  legal := hp
  counted := rfl
  bounded := Nat.zero_le _
  answered _ hk := absurd hk (Nat.not_lt_zero _)

end Sys2Proof.Machine

namespace Sys2Proof.Proofs

open Sys2Proof.Machine

/-- Settles O33: a step past the last line changes nothing, and any other answers its line. -/
theorem everyStepKeepsRunContract : Obligations.EveryStepKeepsRunContract := by
  intro s t h hstep
  rcases step_next_cases_respond hstep with ⟨-, rfl⟩ | ⟨l, a, hl, ha, rfl⟩
  · exact h
  · exact h.respond hl ha

/-- Settles O26: the chained operand's bits are the noted response, and the step answers the line. -/
theorem chainedOperandIsWholeResponse : Obligations.ChainedOperandIsWholeResponse := fun s op _ x hl hx =>
  ⟨s.respond op x (blockFunction op x), step_of_line hl hx, rfl, rfl, rfl, rfl⟩

/-- Settles O28: a refused step is at an open chain, which is a line whose chained operand lacks its bits. -/
theorem onlyOpenChainsAreRefused : Obligations.OnlyOpenChainsAreRefused := by
  intro s ρ
  rw [step_eq_refused_iff, presentation_eq_openChain_iff]
  refine and_congr_right fun _ => ⟨?_, ?_⟩
  · rintro ⟨⟨op, o⟩, hl, hnone⟩
    obtain ⟨k, rfl, hk⟩ := operandBits_eq_none_iff.mp hnone
    exact ⟨op, k, hl, hk⟩
  · rintro ⟨op, k, hl, hk⟩
    exact ⟨_, hl, operandBits_eq_none_iff.mpr ⟨k, rfl, hk⟩⟩

/-- Settles O29: a step stays past the last line, and answers a line it finds. -/
theorem indexAdvancesByOnePerRequest : Obligations.IndexAdvancesByOnePerRequest := by
  intro s t hstep
  rcases step_next_cases_respond hstep with ⟨hend, rfl⟩ | ⟨l, a, hl, -, rfl⟩
  · exact ⟨rfl, fun hpc => absurd hend hpc.not_ge, fun _ => rfl⟩
  · exact ⟨rfl, fun _ => rfl, fun hend => absurd hend (List.getElem?_eq_some_iff.mp hl).1.not_ge⟩

/-- Settles O30: the placed word is presented, and placing it leaves the other lines. -/
theorem placedWordRunsNext : Obligations.PlacedWordRunsNext := fun s nbits w =>
  ⟨step_of_request (presentation_withFetchWord s nbits w), rfl, fun _ hne hk => placeLine_getElem?_of_ne _ hne hk⟩

/-- Settles O31: the placed request is presented at reset, and is answered as in any state. -/
theorem firstRequestAfterResetAnswersBlock : Obligations.FirstRequestAfterResetAnswersBlock := by
  intro op a nbits
  have hstep := step_of_request (presentation_withFetchWord State.reset nbits (serialise op a))
  rw [decode_serialise, exec_decodeRequest] at hstep
  exact ⟨_, hstep, rfl, rfl, rfl, rfl, rfl⟩

/-- Settles O34: the assembler gives out legal programs only. -/
theorem loadedLegalProgramMeetsRunContract : Obligations.LoadedLegalProgramMeetsRunContract :=
  fun _ _ _ hports hp => State.inv_load hports (programWellFormed_of_assemble hp)

/-- Settles O35: the line has its bits, and the step notes the response due to it. -/
theorem pendingRequestGetsDueResponse : Obligations.PendingRequestGetsDueResponse := by
  intro s h hpc
  obtain ⟨l, a, hl, ha, hstep⟩ := h.exists_step hpc
  exact ⟨_, _, hstep, State.dueResponse_eq_some_iff.mpr ⟨l, a, hl, ha, rfl⟩, rfl, rfl, rfl⟩

/-- Settles O36: the run ends in a good state at the end of the program, whose index counts its responses. -/
theorem runEndsWithEveryDueResponse : Obligations.RunEndsWithEveryDueResponse := by
  intro s h
  obtain ⟨t, hrun, hinv, hprogram, hpc, hkept⟩ := h.exists_run (Nat.add_sub_cancel' h.bounded)
  have hlength : t.responses.length = s.program.length := hinv.counted.symm.trans hpc
  refine ⟨t, hrun, hprogram, hpc, presentation_of_length_le (by rw [hprogram, hpc]), hlength, fun k hk => ?_,
    fun k hk => hinv.exists_response (by rwa [hlength])⟩
  obtain ⟨more, hmore⟩ := hkept
  rw [← hmore, List.getElem?_append_left hk]

/-- Settles O27: nothing is presented there. -/
theorem stepAfterLastRequestChangesNothing : Obligations.StepAfterLastRequestChangesNothing :=
  fun _ => step_of_length_le

/-- Settles O32: the reset state is as if an empty program were loaded, and its ports agree. -/
theorem resetStateMeetsRunContract : Obligations.ResetStateMeetsRunContract :=
  State.inv_load (s := State.reset) (p := []) State.r_of_reset rfl

end Sys2Proof.Proofs

/-!
PROOFS. The decoder where a request is only a number (10_state.md R32, log 6), and the words that the spec writes out.
-/

namespace Sys2Proof

/-- A number of at most 66 bits is a request (30_encoding.md R66). -/
theorem decodeNat_of_lt {w : Nat} (h : w < 2 ^ 66) : decodeNat w = .ok (decode (BitVec.ofNat 66 w)) := if_pos h

/-- A number of more than 66 bits is no request (60_exceptions.md R153, log 6). -/
theorem decodeNat_of_le {w : Nat} (h : 2 ^ 66 ≤ w) : decodeNat w = .error .widerThanRequest := if_neg h.not_gt

end Sys2Proof

namespace Sys2Proof.Proofs

/-- Settles O24: the two sides of the boundary, and a word survives decoding and encoding. -/
theorem onlyTooWideNumbersAreRejected : Obligations.OnlyTooWideNumbersAreRejected := by
  refine fun w => ⟨⟨fun h => ?_, decodeNat_of_le⟩, fun h => ⟨_, decodeNat_of_lt h, ?_⟩⟩
  · by_contra hlt
    rw [decodeNat_of_lt (not_le.mp hlt)] at h
    cases h
  · rw [encode_decode, BitVec.toNat_ofNat, Nat.mod_eq_of_lt h]

/-- Settles O23: each word is the request of its code and operand. -/
theorem sampleWordsDecode : Obligations.SampleWordsDecode :=
  ⟨decode_serialise 0b00#2 0x000000007F800001#64, decode_serialise 0b01#2 0xBFF0000000000000#64,
    decode_serialise 0b10#2 0x0000000080000000#64, decode_serialise 0b11#2 0x0000000100000000#64⟩

end Sys2Proof.Proofs

/-!
PROOFS. Readings of encodings (40_fp32_bitcast.md R80 to R83, 41_fp64_bitcast.md R110 to R113): the class table and the
value formulas are one for both widths, so each fact is proved of a format's fields and read off at the two widths.
-/

namespace Sys2Proof.Machine

/-! ### The fields of an encoding -/

/-- A binary64 encoding is its sign, exponent and mantissa, in that order (41_fp64_bitcast.md R110). -/
theorem eq_append_fields64 (v : Float64Value) :
    v = (BitVec.ofBool (sign64 v) ++ exponent64 v ++ mantissa64 v : BitVec 64) := by
  have hsign : BitVec.ofBool (sign64 v) = v.extractLsb' 63 1 := ofBool_getElem_eq_extractLsb' v (by omega)
  have htop : v.extractLsb' 63 1 ++ v.extractLsb' 52 11 = v.extractLsb' 52 12 :=
    BitVec.extractLsb'_append_extractLsb'_eq_extractLsb' rfl
  rw [hsign, exponent64, mantissa64, htop, BitVec.extractLsb'_append_extractLsb']

/-- The quiet bit of a binary32 encoding is `v[22]` (40_fp32_bitcast.md R83). -/
theorem mantissa32_getElem_22 (v : Float32Value) : (mantissa32 v)[22] = v[22] := by
  simp [mantissa32]

/-- The quiet bit of a binary64 encoding is `v[51]` (41_fp64_bitcast.md R113). -/
theorem mantissa64_getElem_51 (v : Float64Value) : (mantissa64 v)[51] = v[51] := by
  simp [mantissa64]

@[simp] theorem sign32_xor_signBit (v : Float32Value) : sign32 (v ^^^ 0x80000000#32) = !sign32 v := by
  simp [sign32]

@[simp] theorem exponent32_xor_signBit (v : Float32Value) : exponent32 (v ^^^ 0x80000000#32) = exponent32 v := by
  rw [exponent32, BitVec.extractLsb'_xor]
  exact BitVec.xor_zero

@[simp] theorem mantissa32_xor_signBit (v : Float32Value) : mantissa32 (v ^^^ 0x80000000#32) = mantissa32 v := by
  rw [mantissa32, BitVec.extractLsb'_xor]
  exact BitVec.xor_zero

@[simp] theorem sign64_xor_signBit (v : Float64Value) : sign64 (v ^^^ 0x8000000000000000#64) = !sign64 v := by
  simp [sign64]

@[simp] theorem exponent64_xor_signBit (v : Float64Value) :
    exponent64 (v ^^^ 0x8000000000000000#64) = exponent64 v := by
  rw [exponent64, BitVec.extractLsb'_xor]
  exact BitVec.xor_zero

@[simp] theorem mantissa64_xor_signBit (v : Float64Value) :
    mantissa64 (v ^^^ 0x8000000000000000#64) = mantissa64 v := by
  rw [mantissa64, BitVec.extractLsb'_xor]
  exact BitVec.xor_zero

/-! ### The class table, over the fields of either format -/

section classify
variable {eMax e m p : Nat} {s quiet negative q : Bool}

theorem classify_eq_subnormal_iff : classify eMax s e m quiet = .subnormal ↔ e = 0 ∧ m ≠ 0 := by
  unfold classify
  split_ifs with h0 hm
  · simp [hm]
  · simp [h0, hm]
  all_goals simp [h0]

theorem classify_eq_normal_iff : classify eMax s e m quiet = .normal ↔ e ≠ 0 ∧ e ≠ eMax := by
  unfold classify; split_ifs <;> simp [*]

theorem classify_eq_infinity_iff (hmax : 0 < eMax) :
    classify eMax s e m quiet = .infinity negative ↔ (e = eMax ∧ m = 0) ∧ s = negative := by
  unfold classify; split_ifs <;> simp [*, hmax.ne]

theorem classify_eq_nan_iff (hmax : 0 < eMax) :
    classify eMax s e m quiet = .nan q ↔ (e = eMax ∧ m ≠ 0) ∧ quiet = q := by
  unfold classify; split_ifs <;> simp [*, hmax.ne]

/-- A magnitude is ordered by its exponent field first. -/
theorem magnitude_lt_iff (k : Nat) (hm : m < 2 ^ p) : e * 2 ^ p + m < k * 2 ^ p ↔ e < k := by
  have he : (e * 2 ^ p + m) / 2 ^ p = e := by
    rw [Nat.mul_comm, Nat.mul_add_div (Nat.two_pow_pos p), Nat.div_eq_of_lt hm, Nat.add_zero]
  rw [← Nat.div_lt_iff_lt_mul (Nat.two_pow_pos p), he]

theorem classify_eq_zero_iff_magnitude :
    classify eMax s e m quiet = .zero negative ↔ e * 2 ^ p + m = 0 ∧ s = negative := by
  simp [classify_eq_zero_iff, and_assoc]

theorem classify_eq_subnormal_iff_magnitude (hm : m < 2 ^ p) :
    classify eMax s e m quiet = .subnormal ↔ 0 < e * 2 ^ p + m ∧ e * 2 ^ p + m < 2 ^ p := by
  have hlt := magnitude_lt_iff (e := e) 1 hm
  rw [Nat.one_mul, Nat.lt_one_iff] at hlt
  rw [classify_eq_subnormal_iff, hlt]
  constructor
  · rintro ⟨rfl, hm0⟩; omega
  · rintro ⟨hpos, rfl⟩; omega

theorem classify_eq_normal_iff_magnitude (hm : m < 2 ^ p) (he : e ≤ eMax) :
    classify eMax s e m quiet = .normal ↔ 2 ^ p ≤ e * 2 ^ p + m ∧ e * 2 ^ p + m < eMax * 2 ^ p := by
  have hlt := magnitude_lt_iff (e := e) 1 hm
  rw [Nat.one_mul] at hlt
  rw [classify_eq_normal_iff, magnitude_lt_iff eMax hm, ← not_lt, hlt]
  omega

theorem classify_eq_infinity_iff_magnitude (hm : m < 2 ^ p) (he : e ≤ eMax) (hmax : 0 < eMax) :
    classify eMax s e m quiet = .infinity negative ↔ e * 2 ^ p + m = eMax * 2 ^ p ∧ s = negative := by
  rw [classify_eq_infinity_iff hmax]
  have hlt := magnitude_lt_iff (e := e) eMax hm
  refine and_congr_left fun _ => ⟨?_, fun h => ?_⟩
  · rintro ⟨rfl, rfl⟩; rfl
  · obtain rfl : e = eMax := by omega
    omega

theorem classify_eq_nan_iff_magnitude (hm : m < 2 ^ p) (he : e ≤ eMax) (hmax : 0 < eMax) :
    classify eMax s e m quiet = .nan q ↔ eMax * 2 ^ p < e * 2 ^ p + m ∧ quiet = q := by
  rw [classify_eq_nan_iff hmax]
  have hlt := magnitude_lt_iff (e := e) eMax hm
  refine and_congr_left fun _ => ⟨?_, fun h => ?_⟩
  · rintro ⟨rfl, hm0⟩; omega
  · obtain rfl : e = eMax := by omega
    omega

end classify

/-! ### The number an encoding denotes -/

/-- The number of the other sign; each zero is the other's. -/
def FpNumber.neg : FpNumber → FpNumber
  | .zero negative => .zero !negative
  | .nonzero q => .nonzero (-q)

@[simp] theorem FpNumber.neg_zero (negative : Bool) : FpNumber.neg (.zero negative) = .zero !negative := rfl

@[simp] theorem FpNumber.neg_nonzero (q : ℚ) : FpNumber.neg (.nonzero q) = .nonzero (-q) := rfl

/-- Over the fields, turning the sign over negates the number, where there is one (R82, R112). -/
theorem denote_classify_not (bias p eMax e m : Nat) (s quiet : Bool) :
    denote bias p (!s) e m (classify eMax (!s) e m quiet) =
      (denote bias p s e m (classify eMax s e m quiet)).map FpNumber.neg := by
  unfold classify
  split_ifs <;> simp [denote]

/-- Over the fields, only an all-ones exponent denotes no number (log 10). -/
theorem denote_classify_eq_none_iff {bias p eMax e m : Nat} {s quiet : Bool} (hmax : 0 < eMax) :
    denote bias p s e m (classify eMax s e m quiet) = none ↔ e = eMax := by
  unfold classify
  split_ifs <;> simp [denote, *, hmax.ne]

theorem number32_xor_signBit (v : Float32Value) : number32 (v ^^^ 0x80000000#32) = (number32 v).map FpNumber.neg := by
  simp [number32, class32, denote_classify_not]

theorem number64_xor_signBit (v : Float64Value) :
    number64 (v ^^^ 0x8000000000000000#64) = (number64 v).map FpNumber.neg := by
  simp [number64, class64, denote_classify_not]

/-- The number of a normal binary32 encoding (40_fp32_bitcast.md R82). -/
theorem number32_of_normal {v : Float32Value} (h : class32 v = .normal) :
    number32 v = some (.nonzero (signFactor (sign32 v) * 2 ^ ((exponent32 v).toNat - 127 : ℤ) *
      (1 + (mantissa32 v).toNat / 2 ^ 23))) := by
  rw [number32, h]; rfl

/-- The number of a normal binary64 encoding (41_fp64_bitcast.md R112). -/
theorem number64_of_normal {v : Float64Value} (h : class64 v = .normal) :
    number64 v = some (.nonzero (signFactor (sign64 v) * 2 ^ ((exponent64 v).toNat - 1023 : ℤ) *
      (1 + (mantissa64 v).toNat / 2 ^ 52))) := by
  rw [number64, h]; rfl

/-- binary32 1.0: a positive sign, the exponent of `2^0` and no fraction (40_fp32_bitcast.md R82). -/
theorem number32_one : number32 0x3F800000#32 = some (.nonzero 1) := by
  have hsign : sign32 0x3F800000#32 = false := by decide
  have hexponent : exponent32 0x3F800000#32 = 127#8 := by decide
  have hmantissa : mantissa32 0x3F800000#32 = 0#23 := by decide
  rw [number32_of_normal (by decide), hsign, hexponent, hmantissa]
  norm_num [signFactor]

/-- binary64 1.0 (41_fp64_bitcast.md R112). -/
theorem number64_one : number64 0x3FF0000000000000#64 = some (.nonzero 1) := by
  have hsign : sign64 0x3FF0000000000000#64 = false := by decide
  have hexponent : exponent64 0x3FF0000000000000#64 = 1023#11 := by decide
  have hmantissa : mantissa64 0x3FF0000000000000#64 = 0#52 := by decide
  rw [number64_of_normal (by decide), hsign, hexponent, hmantissa]
  norm_num [signFactor]

end Sys2Proof.Machine

namespace Sys2Proof.Proofs

open Sys2Proof.Machine

/-- Settles O40: the three fields are consecutive slices. -/
theorem fieldsMakeUpEncoding : Obligations.FieldsMakeUpEncoding :=
  ⟨eq_append_fields32, eq_append_fields64⟩

/-- Settles O41: the magnitude is exponent and mantissa put together, and the class table cuts it into ranges. -/
theorem binary32ClassesAreMagnitudeRanges : Obligations.Binary32ClassesAreMagnitudeRanges := by
  intro v
  have hm : (mantissa32 v).toNat < 2 ^ 23 := (mantissa32 v).isLt
  have he : (exponent32 v).toNat ≤ 255 := Nat.le_of_lt_succ (exponent32 v).isLt
  rw [magnitude32, ← mantissa32_getElem_22]
  exact ⟨fun _ => classify_eq_zero_iff_magnitude, classify_eq_subnormal_iff_magnitude hm,
    classify_eq_normal_iff_magnitude hm he, fun _ => classify_eq_infinity_iff_magnitude hm he (by decide),
    fun _ => classify_eq_nan_iff_magnitude hm he (by decide)⟩

/-- Settles O42: as at 32 bits. -/
theorem binary64ClassesAreMagnitudeRanges : Obligations.Binary64ClassesAreMagnitudeRanges := by
  intro v
  have hm : (mantissa64 v).toNat < 2 ^ 52 := (mantissa64 v).isLt
  have he : (exponent64 v).toNat ≤ 2047 := Nat.le_of_lt_succ (exponent64 v).isLt
  rw [magnitude64, ← mantissa64_getElem_51]
  exact ⟨fun _ => classify_eq_zero_iff_magnitude, classify_eq_subnormal_iff_magnitude hm,
    classify_eq_normal_iff_magnitude hm he, fun _ => classify_eq_infinity_iff_magnitude hm he (by decide),
    fun _ => classify_eq_nan_iff_magnitude hm he (by decide)⟩

/-- Settles O43: the sign bit is no part of exponent and mantissa, and enters the number as a factor. -/
theorem signBitNegatesNumber : Obligations.SignBitNegatesNumber := by
  refine ⟨fun v q h => ?_, fun v b h => ?_, fun v q h => ?_, fun v b h => ?_⟩
  · rw [number32_xor_signBit, h, Option.map_some, FpNumber.neg_nonzero]
  · rw [number32_xor_signBit, h, Option.map_some, FpNumber.neg_zero]
  · rw [number64_xor_signBit, h, Option.map_some, FpNumber.neg_nonzero]
  · rw [number64_xor_signBit, h, Option.map_some, FpNumber.neg_zero]

/-- Settles O44: the exponent field decides whether the formulas of R82 and R112 give a number. -/
theorem onlyAllOnesExponentDenotesNoNumber : Obligations.OnlyAllOnesExponentDenotesNoNumber :=
  ⟨fun _ => (denote_classify_eq_none_iff (by decide)).trans (BitVec.toNat_inj (y := 0xFF#8)),
    fun _ => (denote_classify_eq_none_iff (by decide)).trans (BitVec.toNat_inj (y := 0x7FF#11))⟩

/-- Settles O45: 1.0 by the formula for normal encodings, and -1.0 is 1.0 with its sign bit turned over. -/
theorem sourceExamplesDenoteOne : Obligations.SourceExamplesDenoteOne :=
  ⟨number32_one, signBitNegatesNumber.1 0x3F800000#32 1 number32_one, number64_one⟩

end Sys2Proof.Proofs
